-- ==== Sys2Proof/Word.lean ====
section
/-! DEFINITION. The word types of HammingECC-CORE (spec 00_scope R7, R8): every value is unsigned and bit 0 is its
least-significant bit. -/

namespace Sys2Proof

/-- A command word or a response word, 32 bits (00_scope R7). -/
abbrev Word := BitVec 32

/-- The width of RES, of IMM8 and of a codeword, 8 bits (00_scope R7; 30_encoding R71). -/
abbrev Byte := BitVec 8

/-- A 4-bit message or syndrome (00_scope R12, R13). -/
abbrev Nibble := BitVec 4

/-- A matrix register number, the 3-bit fields MD, MA and MB (20_memory R52; 30_encoding R71). -/
abbrev RegNo := BitVec 3

/-- A 4-bit shape field: FI or FJ of a command, rows or cols of a matrix register (10_state R21; 30_encoding R71). -/
abbrev Shape := BitVec 4

/-- The 64 storage bits of one matrix register (10_state R21). -/
abbrev Cells := BitVec 64

end Sys2Proof
end

