-- ==== Sys2Proof/Syntax.lean ====
section
/-! DEFINITION. The command set: one constructor for each row of the opcode table (spec 30_encoding R75, R76), with
exactly the fields the command uses (R73). -/

namespace Sys2Proof

/-- A decoded command. Each operand has the width of its field in the command word (30_encoding R71, R72), so every
value of this type is a command that a word can spell: the width checks of R79 are made before an `Instr` exists
(`AsmForm.fits`), and the unused-field checks of R73 while a word is decoded (`decode`). -/
inductive Instr where
  /-- 0x00 NOP: no operation (40_storage R100). -/
  | nop
  /-- 0x01 CREATE md, rows, cols: a zero matrix of that shape (40_storage R101). -/
  | create (md : RegNo) (rows cols : Shape)
  /-- 0x02 FREE md: make the register absent (40_storage R102). -/
  | free (md : RegNo)
  /-- 0x03 ROWS ma: read the row count (40_storage R103). -/
  | rows (ma : RegNo)
  /-- 0x04 COLS ma: read the column count (40_storage R104). -/
  | cols (ma : RegNo)
  /-- 0x05 LEN ma: read the length of the bit vector (40_storage R105). -/
  | len (ma : RegNo)
  /-- 0x06 GETBIT ma, r, c: read one cell (41_bit_access R121). -/
  | getbit (ma : RegNo) (r c : Shape)
  /-- 0x07 SETBIT md, r, c: force one cell to 1 (41_bit_access R122). -/
  | setbit (md : RegNo) (r c : Shape)
  /-- 0x08 CLRBIT md, r, c: force one cell to 0 (41_bit_access R123). -/
  | clrbit (md : RegNo) (r c : Shape)
  /-- 0x09 TGLBIT md, r, c: invert one cell (41_bit_access R124). -/
  | tglbit (md : RegNo) (r c : Shape)
  /-- 0x0A XORBIT md, r, c, b: add the bit b into one cell (41_bit_access R125). -/
  | xorbit (md : RegNo) (r c : Shape) (b : BitVec 1)
  /-- 0x0B FROMBYTE md, byte, length: a row matrix from the low bits of a byte (42_convert_multiply R140). -/
  | frombyte (md : RegNo) (byte : Byte) (length : Shape)
  /-- 0x0C TOBYTE ma: pack row 0 into RES (42_convert_multiply R141). -/
  | tobyte (ma : RegNo)
  /-- 0x0D MUL md, ma, mb: md <- ma x mb over GF(2) (42_convert_multiply R142). -/
  | mul (md ma mb : RegNo)
  /-- 0x0E ENC imm: encode the message imm[3:0]; imm[7:4] is taken and ignored (43_codec R160). -/
  | enc (imm : Byte)
  /-- 0x0F DEC imm: decode the codeword imm (43_codec R163). -/
  | dec (imm : Byte)
  deriving DecidableEq, Repr

end Sys2Proof
end

