-- ==== Sys2Proof/Decode.lean ====
section
/-! DEFINITION. The command word: its fields, the encoder, the row table and the decoder (spec 30_encoding R70 to R77). -/

namespace Sys2Proof

/-! ## Fields (30_encoding R71) -/

/-- OP, bits 4:0. -/
def fieldOP (w : Word) : BitVec 5 := w.extractLsb' 0 5

/-- MD, bits 7:5. -/
def fieldMD (w : Word) : RegNo := w.extractLsb' 5 3

/-- MA, bits 10:8. -/
def fieldMA (w : Word) : RegNo := w.extractLsb' 8 3

/-- MB, bits 13:11. -/
def fieldMB (w : Word) : RegNo := w.extractLsb' 11 3

/-- FI, bits 19:16. -/
def fieldFI (w : Word) : Shape := w.extractLsb' 16 4

/-- FJ, bits 23:20. -/
def fieldFJ (w : Word) : Shape := w.extractLsb' 20 4

/-- IMM8, bits 31:24. -/
def fieldIMM8 (w : Word) : Byte := w.extractLsb' 24 8

/-- IMM8[0], bit 24: the bit operand of XORBIT (30_encoding R72). -/
def fieldB (w : Word) : BitVec 1 := w.extractLsb' 24 1

/-! ## Encoder (30_encoding R77) -/

/-- `w = OP | MD<<5 | MA<<8 | MB<<11 | FI<<16 | FJ<<20 | IMM8<<24` (30_encoding R77); RSV is 0. -/
def packCommand (op : BitVec 5) (md ma mb : RegNo) (fi fj : Shape) (imm8 : Byte) : Word :=
  op.setWidth 32 ||| md.setWidth 32 <<< 5 ||| ma.setWidth 32 <<< 8 ||| mb.setWidth 32 <<< 11
    ||| fi.setWidth 32 <<< 16 ||| fj.setWidth 32 <<< 20 ||| imm8.setWidth 32 <<< 24

/-- The one word of a command: the opcode of 30_encoding R75, the used fields of R73, every other field 0. -/
def encode : Instr → Word
  | .nop => packCommand 0x00 0 0 0 0 0 0
  | .create md r c => packCommand 0x01 md 0 0 r c 0
  | .free md => packCommand 0x02 md 0 0 0 0 0
  | .rows ma => packCommand 0x03 0 ma 0 0 0 0
  | .cols ma => packCommand 0x04 0 ma 0 0 0 0
  | .len ma => packCommand 0x05 0 ma 0 0 0 0
  | .getbit ma r c => packCommand 0x06 0 ma 0 r c 0
  | .setbit md r c => packCommand 0x07 md 0 0 r c 0
  | .clrbit md r c => packCommand 0x08 md 0 0 r c 0
  | .tglbit md r c => packCommand 0x09 md 0 0 r c 0
  | .xorbit md r c b => packCommand 0x0A md 0 0 r c (b.setWidth 8)
  | .frombyte md b n => packCommand 0x0B md 0 0 n 0 b
  | .tobyte ma => packCommand 0x0C 0 ma 0 0 0 0
  | .mul md ma mb => packCommand 0x0D md ma mb 0 0 0
  | .enc imm => packCommand 0x0E 0 0 0 0 0 imm
  | .dec imm => packCommand 0x0F 0 0 0 0 0 imm

/-! ## Decoder (30_encoding R76) -/

/-- One row of the decode table: a word belongs to the row when `(w and mask) == pattern`; `build` takes the row's
used fields out of the word. -/
structure EncRow where
  mnemonic : String
  pattern : Word
  mask : Word
  build : Word → Instr

/-- The word belongs to the row (30_encoding R76). -/
def EncRow.hits (r : EncRow) (w : Word) : Bool := (w &&& r.mask) == r.pattern

/-- The decode table of 30_encoding R76, row by row, with the used fields of R73. -/
def encRows : List EncRow := [
  ⟨"NOP",      0x00000000, 0xFFFFFFFF, fun _ => .nop⟩,
  ⟨"CREATE",   0x00000001, 0xFF00FF1F, fun w => .create (fieldMD w) (fieldFI w) (fieldFJ w)⟩,
  ⟨"FREE",     0x00000002, 0xFFFFFF1F, fun w => .free (fieldMD w)⟩,
  ⟨"ROWS",     0x00000003, 0xFFFFF8FF, fun w => .rows (fieldMA w)⟩,
  ⟨"COLS",     0x00000004, 0xFFFFF8FF, fun w => .cols (fieldMA w)⟩,
  ⟨"LEN",      0x00000005, 0xFFFFF8FF, fun w => .len (fieldMA w)⟩,
  ⟨"GETBIT",   0x00000006, 0xFF00F8FF, fun w => .getbit (fieldMA w) (fieldFI w) (fieldFJ w)⟩,
  ⟨"SETBIT",   0x00000007, 0xFF00FF1F, fun w => .setbit (fieldMD w) (fieldFI w) (fieldFJ w)⟩,
  ⟨"CLRBIT",   0x00000008, 0xFF00FF1F, fun w => .clrbit (fieldMD w) (fieldFI w) (fieldFJ w)⟩,
  ⟨"TGLBIT",   0x00000009, 0xFF00FF1F, fun w => .tglbit (fieldMD w) (fieldFI w) (fieldFJ w)⟩,
  ⟨"XORBIT",   0x0000000A, 0xFE00FF1F, fun w => .xorbit (fieldMD w) (fieldFI w) (fieldFJ w) (fieldB w)⟩,
  ⟨"FROMBYTE", 0x0000000B, 0x00F0FF1F, fun w => .frombyte (fieldMD w) (fieldIMM8 w) (fieldFI w)⟩,
  ⟨"TOBYTE",   0x0000000C, 0xFFFFF8FF, fun w => .tobyte (fieldMA w)⟩,
  ⟨"MUL",      0x0000000D, 0xFFFFC01F, fun w => .mul (fieldMD w) (fieldMA w) (fieldMB w)⟩,
  ⟨"ENC",      0x0000000E, 0x00FFFFFF, fun w => .enc (fieldIMM8 w)⟩,
  ⟨"DEC",      0x0000000F, 0x00FFFFFF, fun w => .dec (fieldIMM8 w)⟩]

/-- Why a word is no command. Both give IllegalCommand when the word is issued (60_exceptions R192). -/
inductive DecodeReject where
  /-- The opcode is 0x10..0x1F (30_encoding R74). -/
  | reservedOpcode
  /-- The opcode is assigned, but RSV or a field the command does not use is not 0 (30_encoding R73). -/
  | unusedFieldSet
  deriving DecidableEq, Repr

/-- The decode function, total on all 2^32 words (30_encoding R76). -/
def decode (w : Word) : Except DecodeReject Instr :=
  match encRows.find? (·.hits w) with
  | some r => .ok (r.build w)
  | none => .error (if (fieldOP w).toNat < 16 then .unusedFieldSet else .reservedOpcode)

/-- The command the decoder reads from the bits `w` of a table row of `nbits` bits, every higher bit 0. A command is
one whole word with bit 0 its least-significant bit (20_memory R55; 30_encoding R70). -/
def decodeTableWord (nbits w : Nat) : Option Instr :=
  match decode (BitVec.ofNat 32 (w % 2 ^ nbits)) with
  | .ok i => some i
  | .error _ => none

end Sys2Proof
end

