-- ==== Sys2Proof/Config.lean ====
section
/-! DEFINITION. What is fixed for the block (spec 00_scope R7), and its open parameters as free values: constants
without a body, so that a claim holds whatever they are. The block itself has no free result: the spec fixes every
result of every command. -/

namespace Sys2Proof

/-! ## Fixed values (00_scope R7) -/

/-- MAXDIM: the largest row count and the largest column count (00_scope R7). -/
def Config.maxDim : Nat := 8

/-- The number of general matrix registers MR0..MR5 (00_scope R7: NMR = 8, of which MR6 and MR7 are constant). -/
def Config.generalRegs : Nat := 6

/-! ## CMD_LATENCY -/

/-- What a command reads of one matrix register: present, rows, cols, bits (10_state R21). -/
abbrev Config.OperandRecord := Bool × Shape × Shape × Cells

/-- CMD_LATENCY, OPEN: the clock cycles from a command's acceptance to its response, a positive number with no upper
bound that may depend on the command word and on the matrix registers it reads (00_scope R7; 70_reset_and_hazards R226;
93_implementation_defined P1; log entry 9). -/
opaque Config.cmdLatency : Word → List Config.OperandRecord → PNat

/-! ## PORT_PROTOCOL -/

/-- One transaction the world outside makes with the block. A second command while one is outstanding is no
transaction: the spec gives the host no such move (70_reset_and_hazards R224; log entry 1). -/
inductive HostEvent where
  /-- The host issues a command word and waits for its response (60_exceptions R205). -/
  | command (w : Word)
  /-- Reset is asserted and released with no command outstanding (70_reset_and_hazards R220). -/
  | reset
  /-- Reset is asserted while the command `w` is outstanding (70_reset_and_hazards R222). -/
  | resetDuring (w : Word)
  deriving DecidableEq, Repr

/-- The signals of the port and of the reset input in one clock cycle. The spec names none of them, so the type is open
(00_scope R7; log entry 10). -/
opaque Config.PortSignals : Type

/-- PORT_PROTOCOL, OPEN: the signal-level handshake with its reset-release timing, as the one thing the transaction
level sees of it: which transactions a sequence of cycles makes (00_scope R7; 70_reset_and_hazards R223;
93_implementation_defined P2; log entry 10). -/
opaque Config.portProtocol : List Config.PortSignals → List HostEvent

/-! ## TRANSPORT_BYTE_ORDER -/

/-- TRANSPORT_BYTE_ORDER, OPEN: which byte of a word (0 the least significant) a narrower transport carries first,
second, third and fourth (00_scope R7; 20_memory R55; 93_implementation_defined P3; log entry 10). -/
opaque Config.transportByteOrder : Equiv.Perm (Fin 4)

/-! ## HOST_UNCORRECTABLE_POLICY -/

/-- What a stream decoding host does about one pair of codewords. -/
inductive PairOutcome where
  /-- It emits a byte or none, and goes on with the next pair. -/
  | goOn (byte : Option Byte)
  /-- It aborts the stream: it emits nothing for this pair or for any later one. -/
  | abort
  deriving DecidableEq, Repr, Inhabited

/-- HOST_UNCORRECTABLE_POLICY, OPEN: what a stream decoding host does about a pair of which either half is UNCORRECTABLE,
as a function of the two response words. The host "decides whether to count it, substitute a default, or abort", so the
policy decides both what it emits for the pair and whether it goes on (92_eei_decisions D26; 93_implementation_defined
U13, P4; 60_exceptions R207). It is a free value of the HOST side (log entry 11); no rule of the block depends on it. -/
opaque Config.hostUncorrectablePolicy : Word → Word → PairOutcome

end Sys2Proof
end

