-- ==== Sys2Proof/Machine/State.lean ====
section
/-! DEFINITION. The state of HammingECC-CORE (spec 10_state R20 to R37), the host's side of the command port, and the
machine right after reset. -/

namespace Sys2Proof.Machine

/-- A matrix register's record (10_state R21). Its cells lie row-major in `bits`: cell (r, c) is bit `r*cols + c`
(R22). The limits of R23 and R24 are `MatrixReg.Wf` in Safety.lean. -/
structure MatrixReg where
  /-- 1 when the register holds a matrix. -/
  present : Bool
  /-- Row count, 0..8. -/
  rows : Shape
  /-- Column count, 0..8. -/
  cols : Shape
  /-- The packed cells. -/
  bits : Cells
  deriving DecidableEq, Repr

/-- The absent register: every field 0 (10_state R23). -/
def MatrixReg.absent : MatrixReg := { present := false, rows := 0, cols := 0, bits := 0 }

/-- STAT, "purely a named enumeration" (10_state R31); its 2-bit codes are `Stat.code`. -/
inductive Stat where
  /-- 0: the last DEC found syndrome 0. -/
  | ok
  /-- 1: the last DEC flipped one bit. -/
  | corrected
  /-- 2: the last DEC found a syndrome whose locator entry is ERR. -/
  | uncorrectable
  /-- 3: no DEC has completed since reset. -/
  | none
  deriving DecidableEq, Repr

/-- The fault codes of FAULT and FCAUSE (60_exceptions R191); their 3-bit codes are `FaultCode.code`. -/
inductive FaultCode where
  /-- 0: the command completed. -/
  | none
  /-- 1 -/
  | illegalCommand
  /-- 2 -/
  | allocationError
  /-- 3 -/
  | invalidLength
  /-- 4 -/
  | dimensionMismatch
  /-- 5 -/
  | degenerateOperand
  /-- 6 -/
  | indexOutOfRange
  /-- 7 -/
  | constantWrite
  deriving DecidableEq, Repr

/-- The block's state (10_state R20) and, last, the two lists that stand for the command port. MR6 and MR7 are
constants and hold no field: `State.readMR` reads them as G and Ht (10_state R26, R27; log entry 6). -/
structure State where
  /-- MR0..MR5, the general matrix registers (10_state R21, R25). -/
  mr : Vector MatrixReg 6
  /-- RES, the result register (10_state R30). -/
  res : Byte
  /-- STAT, the decode status register (10_state R31). -/
  stat : Stat
  /-- FSTICKY, the sticky fault flag (10_state R32). -/
  fsticky : Bool
  /-- FCAUSE, the first fault since reset (10_state R33). -/
  fcause : FaultCode
  /-- MODEL'S OWN: the host's transactions still to come, the next one first (70_reset_and_hazards R229; log entry 1). -/
  hostEvents : List HostEvent
  /-- MODEL'S OWN: the response words returned so far, oldest first (30_encoding R78; log entry 4). -/
  responses : List Word
  deriving DecidableEq, Repr

/-- The machine right after reset (10_state R37; 70_reset_and_hazards R221). The two lists of the port are empty:
DESIGN CHOICE, log entries 1 and 4. -/
def State.reset : State where
  mr := Vector.replicate 6 MatrixReg.absent
  res := 0x00
  stat := .none
  fsticky := false
  fcause := .none
  hostEvents := []
  responses := []

/-- Reasons for which the machine itself stops. There is none: a fault of this block ends its own command and "does
not stop the block" (60_exceptions R190), so it is a next state, and the type has no constructor (log entry 13). -/
inductive Fault where
  deriving DecidableEq, Repr

/-- Reasons for which the model has no meaning for an instruction. -/
inductive Refusal where
  /-- Raised by an arm of `exec` whose instruction has no meaning yet. Safe: the model stops. No arm raises it. -/
  | notModelled (mnemonic : String)
  deriving DecidableEq, Repr

end Sys2Proof.Machine
end

