-- ==== Sys2Proof/Machine/Flags.lean ====
section
/-! DEFINITION. The codes of STAT and FAULT, the sticky fault record and the response word (spec 10_state R31 to R33,
60_exceptions R191, R194, 30_encoding R78). -/

namespace Sys2Proof.Machine

/-- The 2-bit code of STAT (10_state R31). -/
def Stat.code : Stat → BitVec 2
  | .ok => 0
  | .corrected => 1
  | .uncorrectable => 2
  | .none => 3

/-- The 3-bit code of a fault (60_exceptions R191). -/
def FaultCode.code : FaultCode → BitVec 3
  | .none => 0
  | .illegalCommand => 1
  | .allocationError => 2
  | .invalidLength => 3
  | .dimensionMismatch => 4
  | .degenerateOperand => 5
  | .indexOutOfRange => 6
  | .constantWrite => 7

/-- The sticky fault record: `if FSTICKY == 0: FCAUSE <- f; FSTICKY <- 1` (60_exceptions R194). -/
def State.recordFault (s : State) (f : FaultCode) : State :=
  { s with fcause := if s.fsticky then s.fcause else f, fsticky := true }

/-- The response word after a command that ended with fault code `f` (30_encoding R78): RES[7:0], STAT[9:8],
FAULT[12:10], FSTICKY[13], FCAUSE[16:14], 0 above. -/
def State.responseWord (s : State) (f : FaultCode) : Word :=
  0#15 ++ s.fcause.code ++ BitVec.ofBool s.fsticky ++ f.code ++ s.stat.code ++ s.res

/-- The block returns the command's response word (30_encoding R78; 60_exceptions R205). -/
def State.respond (s : State) (f : FaultCode) : State :=
  { s with responses := s.responses ++ [s.responseWord f] }

/-! ## Reading a response word (30_encoding R78) -/

/-- RES, bits 7:0. -/
def rspRes (r : Word) : Byte := r.extractLsb' 0 8

/-- STAT, bits 9:8. -/
def rspStat (r : Word) : BitVec 2 := r.extractLsb' 8 2

/-- FAULT, bits 12:10. -/
def rspFault (r : Word) : BitVec 3 := r.extractLsb' 10 3

/-- FSTICKY, bit 13. -/
def rspSticky (r : Word) : BitVec 1 := r.extractLsb' 13 1

/-- FCAUSE, bits 16:14. -/
def rspCause (r : Word) : BitVec 3 := r.extractLsb' 14 3

/-- Bits 31:17, always 0. -/
def rspZero (r : Word) : BitVec 15 := r.extractLsb' 17 15

end Sys2Proof.Machine
end

