-- ==== Sys2Proof/Machine/Operands.lean ====
section
/-! DEFINITION. The operand forms: a matrix register by number, a cell of it, and the packing of cells into a word
(spec 10_state R22, R26, R27; 20_memory R51 to R53; 41_bit_access R120). -/

namespace Sys2Proof.Machine

/-! ## Matrix registers -/

/-- G, the generator matrix, the constant of MR6 (10_state R26). -/
def genMatrix : MatrixReg := { present := true, rows := 4, cols := 8, bits := 0x0000000078B4D2E1 }

/-- Ht, the parity-check-transpose matrix, the constant of MR7 (10_state R27). -/
def parMatrix : MatrixReg := { present := true, rows := 8, cols := 4, bits := 0x0000000084217BDE }

/-- The register number names a constant: `i == 6 or i == 7` (20_memory R52). -/
def isConst (i : RegNo) : Bool := i == 6 || i == 7

/-- `MR[i]`: MR0..MR5 from the state, MR6 = G and MR7 = Ht (20_memory R52). -/
def State.readMR (s : State) (i : RegNo) : MatrixReg :=
  if h : i.toNat < 6 then s.mr[i.toNat] else if i = 6 then genMatrix else parMatrix

/-- `MR[i] <- M`. A constant register keeps its value; no command gets here with one, since each ends in
ConstantWrite first (60_exceptions R192). -/
def State.writeMR (s : State) (i : RegNo) (M : MatrixReg) : State :=
  if h : i.toNat < 6 then { s with mr := s.mr.set i.toNat M } else s

/-! ## Cells -/

/-- `cell(M, r, c)`: bit `r*cols + c` of the register's bits (10_state R22). -/
def MatrixReg.cell (M : MatrixReg) (r c : Nat) : Bool := M.bits.getLsbD (r * M.cols.toNat + c)

/-- The number of cells, `rows*cols` (10_state R21). -/
def MatrixReg.area (M : MatrixReg) : Nat := M.rows.toNat * M.cols.toNat

/-- Bit `i` of the register's bits becomes `b`. -/
def MatrixReg.withBit (M : MatrixReg) (i : Nat) (b : Bool) : MatrixReg :=
  { M with bits := if b then M.bits ||| (1#64 <<< i) else M.bits &&& ~~~(1#64 <<< i) }

/-- The cell check of a present register: the index of cell (r, c), or `none` where the command faults with
IndexOutOfRange (41_bit_access R120; 20_memory R51). -/
def cellIndex (M : MatrixReg) (r c : Shape) : Option Nat :=
  if M.rows ≤ r ∨ M.cols ≤ c then none else some (r.toNat * M.cols.toNat + c.toNat)

/-! ## Packing -/

/-- The `w`-bit word whose bit `i` is `f i` for `i < n` and 0 elsewhere: element `i` of a row goes to bit `i`, the
least-significant first (20_memory R53). -/
def packBits (w : Nat) (f : Nat → Bool) : Nat → BitVec w
  | 0 => 0#w
  | n + 1 => if f n then packBits w f n ||| (1#w <<< n) else packBits w f n

end Sys2Proof.Machine
end

