-- ==== Sys2Proof/Machine/Ops.lean ====
section
/-! DEFINITION. The named operations of the block: how a command ends, the shared cell operation, matrix algebra over
GF(2), the codec's functions and reset (spec 60_exceptions R190 to R195; 41_bit_access R120; 42_convert_multiply R140
to R143; 43_codec R160 to R163; 70_reset_and_hazards R220 to R222). -/

namespace Sys2Proof.Machine

/-- What every meaning answers. -/
abbrev Result := Host.Outcome State Fault Refusal

/-! ## How a command ends -/

/-- `return`: the writes made in `s` take effect together and the response carries FAULT = 0 (00_scope R10; 20_memory
R56; 30_encoding R78). -/
def complete (s : State) : Result := .next (s.respond .none)

/-- `raise f`: taking a fault. `s` is the state BEFORE the command: nothing of it changes but FSTICKY and FCAUSE, and
the response carries FAULT = f (60_exceptions R190, R193, R194). No trap entry exists (R198): no state is saved, no
mode changes and there is no vector, so there is no return from a fault either. -/
def raise (f : FaultCode) (s : State) : Result := .next ((s.recordFault f).respond f)

/-! ## Cell commands -/

/-- SETBIT, CLRBIT, TGLBIT and XORBIT share one course: ConstantWrite on MR6 and MR7, no effect on an absent register,
IndexOutOfRange outside the matrix, else the cell becomes `f` of its value (41_bit_access R120, R122 to R125;
60_exceptions R195). -/
def updateCell (f : Bool → Bool) (md : RegNo) (r c : Shape) (s : State) : Result :=
  if isConst md then raise .constantWrite s
  else if (s.readMR md).present = false then complete s
  else match cellIndex (s.readMR md) r c with
    | none => raise .indexOutOfRange s
    | some i => complete (s.writeMR md ((s.readMR md).withBit i (f ((s.readMR md).bits.getLsbD i))))

/-! ## Matrices over GF(2) -/

/-- A 1×n row matrix from the low n bits of a byte: `bits = zext_64(b and ((1 << n) - 1))` (42_convert_multiply R140). -/
def rowOfByte (b : Byte) (n : Shape) : MatrixReg :=
  { present := true, rows := 1, cols := n, bits := (b &&& ((1#8 <<< n.toNat) - 1#8)).setWidth 64 }

/-- Row 0 as a byte, column c to bit c; 0 for an absent register or one with no row (42_convert_multiply R141). -/
def byteOfRow (M : MatrixReg) : Byte :=
  if M.present = false ∨ M.rows = 0 then 0 else packBits 8 (fun c => M.cell 0 c) M.cols.toNat

/-- Cell (i, j) of A×B: the XOR over k of `A[i,k] and B[k,j]` (42_convert_multiply R142). -/
def mulCell (A B : MatrixReg) (i j : Nat) : Bool :=
  (List.range A.cols.toNat).foldl (fun acc k => acc ^^ (A.cell i k && B.cell k j)) false

/-- A×B, of shape `A.rows × B.cols`. Storage bit n is cell (n / cols, n % cols), the row-major flattening of 10_state
R22 (42_convert_multiply R142). -/
def multiply (A B : MatrixReg) : MatrixReg :=
  { present := true, rows := A.rows, cols := B.cols,
    bits := packBits 64 (fun n => mulCell A B (n / B.cols.toNat) (n % B.cols.toNat)) (A.rows.toNat * B.cols.toNat) }

/-- Absent, or with a dimension 0: an operand that MUL refuses (42_convert_multiply R142). -/
def degenerate (M : MatrixReg) : Bool := !M.present || M.rows == 0 || M.cols == 0

/-! ## The codec -/

/-- The codeword of a message: `toByte(fromByte(m, 4) × G)` (43_codec R160). -/
def codeword (m : Nibble) : Byte := byteOfRow (multiply (rowOfByte (m.setWidth 8) 4) genMatrix)

/-- The syndrome of a received byte: `toByte(fromByte(cw, 8) × Ht)` (43_codec R161). -/
def syndrome (cw : Byte) : Nibble := (byteOfRow (multiply (rowOfByte cw 8) parMatrix)).setWidth 4

/-- The array of SLUT as 10_state R29 prints it, indexed by the syndrome: the codeword bit to flip, or `none` for a
hardware entry with valid = 0. Those are the seven ERR entries and entry 0, which is never consulted (log entry 14). -/
def slutTable : Vector (Option (BitVec 3)) 16 :=
  #v[none, some 4, some 5, none, some 6, none, none, some 3, some 7, none, none, some 2, none, some 1, some 0, none]

/-- `SLUT[s]` (10_state R29; 43_codec R162). -/
def slut (s : Nibble) : Option (BitVec 3) := slutTable[s.toNat]

/-- The low nibble of a byte, zero-extended: `zext_8(cw[3:0])` (43_codec R163). -/
def lowNibble (b : Byte) : Byte := (b.extractLsb' 0 4).setWidth 8

/-- Toggle bit p: `cw xor (1 << p)` (43_codec R163). -/
def flipBit (b : Byte) (p : BitVec 3) : Byte := b ^^^ (1#8 <<< p.toNat)

/-! ## Reset -/

/-- Asserting reset puts every piece of the block's state into its reset value (70_reset_and_hazards R220, R221). What
the host still has to issue and the responses it already holds are outside the block and stay (log entry 5). -/
def State.assertReset (s : State) : State :=
  { State.reset with hostEvents := s.hostEvents, responses := s.responses }

end Sys2Proof.Machine
end

