-- ==== Sys2Proof/Machine/BitAccess.lean ====
section
/-! DEFINITION. Cell access commands: GETBIT, SETBIT, CLRBIT, TGLBIT, XORBIT (spec 41_bit_access R120 to R125). -/

namespace Sys2Proof.Machine

/-- GETBIT: 0 for an absent register, else the cell (41_bit_access R121). -/
def execGetbit (ma : RegNo) (r c : Shape) (s : State) : Result :=
  if (s.readMR ma).present = false then complete { s with res := 0 }
  else match cellIndex (s.readMR ma) r c with
    | none => raise .indexOutOfRange s
    | some i => complete { s with res := (BitVec.ofBool ((s.readMR ma).bits.getLsbD i)).setWidth 8 }

/-- SETBIT: `M.bits[i] <- 1` (41_bit_access R122). -/
def execSetbit (md : RegNo) (r c : Shape) (s : State) : Result := updateCell (fun _ => true) md r c s

/-- CLRBIT: `M.bits[i] <- 0` (41_bit_access R123). -/
def execClrbit (md : RegNo) (r c : Shape) (s : State) : Result := updateCell (fun _ => false) md r c s

/-- TGLBIT: `M.bits[i] <- M.bits[i] xor 1` (41_bit_access R124). -/
def execTglbit (md : RegNo) (r c : Shape) (s : State) : Result := updateCell (fun x => x ^^ true) md r c s

/-- XORBIT: `M.bits[i] <- M.bits[i] xor b` (41_bit_access R125). -/
def execXorbit (md : RegNo) (r c : Shape) (b : BitVec 1) (s : State) : Result :=
  updateCell (fun x => x ^^ b.getLsbD 0) md r c s

end Sys2Proof.Machine
end

