-- ==== Sys2Proof/Machine/Codec.lean ====
section
/-! DEFINITION. The codec commands ENC and DEC (spec 43_codec R160 to R164). -/

namespace Sys2Proof.Machine

/-- ENC: `RES <-` the codeword of IMM8[3:0] (43_codec R160). -/
def execEnc (imm : Byte) (s : State) : Result := complete { s with res := codeword (imm.extractLsb' 0 4) }

/-- DEC: on syndrome 0 the low nibble, OK; on ERR only STAT is written; else bit p is flipped back, CORRECTED
(43_codec R163, R164). -/
def execDec (imm : Byte) (s : State) : Result :=
  if syndrome imm = 0 then complete { s with res := lowNibble imm, stat := .ok }
  else match slut (syndrome imm) with
    | none => complete { s with stat := .uncorrectable }
    | some p => complete { s with res := lowNibble (flipBit imm p), stat := .corrected }

end Sys2Proof.Machine
end

