-- ==== Sys2Proof/Machine/Convert.lean ====
section
/-! DEFINITION. Byte conversion and GF(2) multiplication: FROMBYTE, TOBYTE, MUL (spec 42_convert_multiply R140 to R144). -/

namespace Sys2Proof.Machine

/-- FROMBYTE (42_convert_multiply R140). -/
def execFrombyte (md : RegNo) (byte : Byte) (length : Shape) (s : State) : Result :=
  if isConst md then raise .constantWrite s
  else if Config.maxDim < length.toNat then raise .invalidLength s
  else complete (s.writeMR md (rowOfByte byte length))

/-- TOBYTE (42_convert_multiply R141). -/
def execTobyte (ma : RegNo) (s : State) : Result := complete { s with res := byteOfRow (s.readMR ma) }

/-- MUL: both operands are read before the destination is written (42_convert_multiply R142). -/
def execMul (md ma mb : RegNo) (s : State) : Result :=
  if isConst md then raise .constantWrite s
  else if degenerate (s.readMR ma) || degenerate (s.readMR mb) then raise .degenerateOperand s
  else if (s.readMR ma).cols ≠ (s.readMR mb).rows then raise .dimensionMismatch s
  else complete (s.writeMR md (multiply (s.readMR ma) (s.readMR mb)))

end Sys2Proof.Machine
end

