-- ==== Sys2Proof/Machine/Storage.lean ====
section
/-! DEFINITION. Storage and shape commands: NOP, CREATE, FREE, ROWS, COLS, LEN (spec 40_storage R100 to R105). -/

namespace Sys2Proof.Machine

/-- NOP: nothing changes; the response carries the state as it is (40_storage R100). -/
def execNop (s : State) : Result := complete s

/-- CREATE (40_storage R101). -/
def execCreate (md : RegNo) (rows cols : Shape) (s : State) : Result :=
  if isConst md then raise .constantWrite s
  else if Config.maxDim < rows.toNat ∨ Config.maxDim < cols.toNat then raise .allocationError s
  else complete (s.writeMR md { present := true, rows := rows, cols := cols, bits := 0 })

/-- FREE (40_storage R102). -/
def execFree (md : RegNo) (s : State) : Result :=
  if isConst md then raise .constantWrite s else complete (s.writeMR md MatrixReg.absent)

/-- ROWS: `RES <- zext_8(MR[MA].rows)` (40_storage R103). -/
def execRows (ma : RegNo) (s : State) : Result := complete { s with res := (s.readMR ma).rows.setWidth 8 }

/-- COLS: `RES <- zext_8(MR[MA].cols)` (40_storage R104). -/
def execCols (ma : RegNo) (s : State) : Result := complete { s with res := (s.readMR ma).cols.setWidth 8 }

/-- LEN: `RES <- zext_8(MR[MA].rows * MR[MA].cols)` (40_storage R105). -/
def execLen (ma : RegNo) (s : State) : Result := complete { s with res := BitVec.ofNat 8 (s.readMR ma).area }

end Sys2Proof.Machine
end

