-- ==== Sys2Proof/Machine/Dispatch.lean ====
section
/-! DEFINITION. One arm for each constructor of Instr: the meaning of each command (spec 30_encoding R75). -/

namespace Sys2Proof.Machine

def exec (i : Instr) (s : State) : Host.Outcome State Fault Refusal :=
  match i with
  | .nop => Sys2Proof.Machine.execNop s
  | .create md r c => Sys2Proof.Machine.execCreate md r c s
  | .free md => Sys2Proof.Machine.execFree md s
  | .rows ma => Sys2Proof.Machine.execRows ma s
  | .cols ma => Sys2Proof.Machine.execCols ma s
  | .len ma => Sys2Proof.Machine.execLen ma s
  | .getbit ma r c => Sys2Proof.Machine.execGetbit ma r c s
  | .setbit md r c => Sys2Proof.Machine.execSetbit md r c s
  | .clrbit md r c => Sys2Proof.Machine.execClrbit md r c s
  | .tglbit md r c => Sys2Proof.Machine.execTglbit md r c s
  | .xorbit md r c b => Sys2Proof.Machine.execXorbit md r c b s
  | .frombyte md b n => Sys2Proof.Machine.execFrombyte md b n s
  | .tobyte ma => Sys2Proof.Machine.execTobyte ma s
  | .mul md ma mb => Sys2Proof.Machine.execMul md ma mb s
  | .enc imm => Sys2Proof.Machine.execEnc imm s
  | .dec imm => Sys2Proof.Machine.execDec imm s

end Sys2Proof.Machine
end

