-- ==== Sys2Proof/Machine/Port.lean ====
section
/-! DEFINITION. What one transaction of the host does to the block: a command word is decoded and run, or reset is
asserted (spec 30_encoding R76; 60_exceptions R192; 70_reset_and_hazards R220 to R222). -/

namespace Sys2Proof.Machine

/-- The block accepts a command word: a word that is no command ends in IllegalCommand before anything else
(30_encoding R76; 60_exceptions R192, R195). -/
def issue (w : Word) (s : State) : Result :=
  match decode w with
  | .ok i => exec i s
  | .error _ => raise .illegalCommand s

/-- No transaction: the block holds its state (60_exceptions R204; log entry 3). -/
def idle (s : State) : Result := .next s

/-- One transaction. A command outstanding when reset is asserted is abandoned: no response, and the state is the
reset state whatever the command would have written (70_reset_and_hazards R222). -/
def transact (e : HostEvent) (s : State) : Result :=
  match e with
  | .command w => issue w s
  | .reset => .next s.assertReset
  | .resetDuring _ => .next s.assertReset

/-- The machine with `w` as the very next command the host issues. -/
def State.placeCommand (s : State) (w : Word) : State := { s with hostEvents := .command w :: s.hostEvents }

end Sys2Proof.Machine
end

