-- ==== Sys2Proof/Machine/Step.lean ====
section
/-! DEFINITION. One step: the next transaction of the host, from its acceptance to its response (spec 20_memory R56,
R58; 70_reset_and_hazards R229). -/

namespace Sys2Proof.Machine

/-- One step takes the host's next transaction off the list and runs it whole; commands are atomic and in issue order
(20_memory R56, R58). With no transaction left the block idles. -/
def step (s : State) : Host.Outcome State Fault Refusal :=
  match s.hostEvents with
  | [] => idle s
  | e :: rest => transact e { s with hostEvents := rest }

/-- `s` with the command word of a table row as the host's next transaction. The block stores no commands (20_memory
R61), so this stands for the host issuing the word (log entry 2). -/
def State.withFetchWord (s : State) (nbits w : Nat) : State :=
  s.placeCommand (BitVec.ofNat 32 (w % 2 ^ nbits))

end Sys2Proof.Machine
end

