-- ==== Sys2Proof/WellFormed.lean ====
section
/-! DEFINITION. The assembler form of a command, with numbers of any size, and the check that each number fits its
field (spec 30_encoding R79). -/

namespace Sys2Proof

/-- One assembler form of 30_encoding R79. A register operand is one of m0..m7 (`g` is m6, `ht` is m7); a numeric
operand is any number, as written. -/
inductive AsmForm where
  | nop
  | create (md : RegNo) (rows cols : Nat)
  | free (md : RegNo)
  | rows (ma : RegNo)
  | cols (ma : RegNo)
  | len (ma : RegNo)
  | getbit (ma : RegNo) (r c : Nat)
  | setbit (md : RegNo) (r c : Nat)
  | clrbit (md : RegNo) (r c : Nat)
  | tglbit (md : RegNo) (r c : Nat)
  | xorbit (md : RegNo) (r c b : Nat)
  | frombyte (md : RegNo) (byte length : Nat)
  | tobyte (ma : RegNo)
  | mul (md ma mb : RegNo)
  | enc (byte : Nat)
  | dec (byte : Nat)
  deriving DecidableEq, Repr

/-- A number that fits FI or FJ (30_encoding R79: "FI or FJ above 15" is refused). Values 9 to 15 fit: what the
command does with them is decided when it runs (R72). -/
def fitsShape (n : Nat) : Bool := n ≤ 15

/-- A number that fits IMM8 (30_encoding R79: "IMM8 above 255" is refused). -/
def fitsByte (n : Nat) : Bool := n ≤ 255

/-- A number that fits IMM8[0] (30_encoding R79: "b above 1" is refused). -/
def fitsBit (n : Nat) : Bool := n ≤ 1

/-- Every numeric operand fits its field (30_encoding R79). -/
def AsmForm.fits : AsmForm → Bool
  | .nop | .free _ | .rows _ | .cols _ | .len _ | .tobyte _ | .mul _ _ _ => true
  | .create _ r c | .getbit _ r c | .setbit _ r c | .clrbit _ r c | .tglbit _ r c => fitsShape r && fitsShape c
  | .xorbit _ r c b => fitsShape r && fitsShape c && fitsBit b
  | .frombyte _ b n => fitsByte b && fitsShape n
  | .enc b | .dec b => fitsByte b

end Sys2Proof
end

