-- ==== Sys2Proof/Machine/Assembler.lean ====
section
/-! DEFINITION. The assembler of the command set: from an assembler form, or a line of text, to one command word (spec
30_encoding R79, R80). It is a tool of the host; the block sees only the words. -/

namespace Sys2Proof.Machine

/-- The command of an assembler form, each number cut to its field's width. -/
def instrOfForm : AsmForm → Instr
  | .nop => .nop
  | .create md r c => .create md (BitVec.ofNat 4 r) (BitVec.ofNat 4 c)
  | .free md => .free md
  | .rows ma => .rows ma
  | .cols ma => .cols ma
  | .len ma => .len ma
  | .getbit ma r c => .getbit ma (BitVec.ofNat 4 r) (BitVec.ofNat 4 c)
  | .setbit md r c => .setbit md (BitVec.ofNat 4 r) (BitVec.ofNat 4 c)
  | .clrbit md r c => .clrbit md (BitVec.ofNat 4 r) (BitVec.ofNat 4 c)
  | .tglbit md r c => .tglbit md (BitVec.ofNat 4 r) (BitVec.ofNat 4 c)
  | .xorbit md r c b => .xorbit md (BitVec.ofNat 4 r) (BitVec.ofNat 4 c) (BitVec.ofNat 1 b)
  | .frombyte md b n => .frombyte md (BitVec.ofNat 8 b) (BitVec.ofNat 4 n)
  | .tobyte ma => .tobyte ma
  | .mul md ma mb => .mul md ma mb
  | .enc b => .enc (BitVec.ofNat 8 b)
  | .dec b => .dec (BitVec.ofNat 8 b)

/-- One form, exactly one word (30_encoding R80); refused when a number is too wide for its field (R79). -/
def assemble (f : AsmForm) : Option Word := if f.fits then some (encode (instrOfForm f)) else none

/-! ## Text (30_encoding R79; the white space and the digits it leaves open: log entry 16) -/

/-- The text without the blanks at either end. -/
def trimBlanks (cs : List Char) : List Char :=
  ((cs.dropWhile (· = ' ')).reverse.dropWhile (· = ' ')).reverse

/-- The pieces of the text between commas. -/
def splitCommas : List Char → List (List Char)
  | [] => [[]]
  | c :: cs =>
    if c = ',' then [] :: splitCommas cs
    else match splitCommas cs with
      | [] => [[c]]
      | p :: ps => (c :: p) :: ps

/-- The value of one decimal or hexadecimal digit. -/
def digitValue (c : Char) : Option Nat :=
  if '0' ≤ c ∧ c ≤ '9' then some (c.toNat - '0'.toNat)
  else if 'a' ≤ c ∧ c ≤ 'f' then some (c.toNat - 'a'.toNat + 10)
  else if 'A' ≤ c ∧ c ≤ 'F' then some (c.toNat - 'A'.toNat + 10)
  else none

/-- The value of a row of digits in the given base, most significant first, `acc` being what stands before them. -/
def digitsValue (base : Nat) : Nat → List Char → Option Nat
  | acc, [] => some acc
  | acc, c :: cs =>
    match digitValue c with
    | some d => if d < base then digitsValue base (acc * base + d) cs else none
    | none => none

/-- "Numbers are decimal or `0x` hexadecimal" (30_encoding R79). -/
def numberOf : List Char → Option Nat
  | [] => none
  | '0' :: 'x' :: d :: ds => digitsValue 16 0 (d :: ds)
  | ds => digitsValue 10 0 ds

/-- "Matrix registers are written `m0`..`m7`; `g` is an alias of `m6` and `ht` an alias of `m7`" (30_encoding R79). -/
def registerOf : List Char → Option RegNo
  | ['g'] => some 6
  | ['h', 't'] => some 7
  | ['m', d] => if '0' ≤ d ∧ d ≤ '7' then some (BitVec.ofNat 3 (d.toNat - '0'.toNat)) else none
  | _ => none

/-- The operands of a line, each trimmed; a line with nothing after its mnemonic has none. -/
def operandsOf (cs : List Char) : List (List Char) :=
  match trimBlanks cs with
  | [] => []
  | t => (splitCommas t).map trimBlanks

/-- A form with one register operand. -/
def formReg (k : RegNo → AsmForm) : List (List Char) → Option AsmForm
  | [a] => (registerOf a).map k
  | _ => none

/-- A form with a register and two numbers. -/
def formRegTwo (k : RegNo → Nat → Nat → AsmForm) : List (List Char) → Option AsmForm
  | [a, b, c] => do return k (← registerOf a) (← numberOf b) (← numberOf c)
  | _ => none

/-- A form with one number. -/
def formNum (k : Nat → AsmForm) : List (List Char) → Option AsmForm
  | [a] => (numberOf a).map k
  | _ => none

/-- The form of a mnemonic with its operands (30_encoding R79: mnemonics are lower case). -/
def formOf (mnemonic : List Char) (ops : List (List Char)) : Option AsmForm :=
  if mnemonic = "nop".toList then (if ops = [] then some .nop else none)
  else if mnemonic = "create".toList then formRegTwo .create ops
  else if mnemonic = "free".toList then formReg .free ops
  else if mnemonic = "rows".toList then formReg .rows ops
  else if mnemonic = "cols".toList then formReg .cols ops
  else if mnemonic = "len".toList then formReg .len ops
  else if mnemonic = "getbit".toList then formRegTwo .getbit ops
  else if mnemonic = "setbit".toList then formRegTwo .setbit ops
  else if mnemonic = "clrbit".toList then formRegTwo .clrbit ops
  else if mnemonic = "tglbit".toList then formRegTwo .tglbit ops
  else if mnemonic = "xorbit".toList then
    match ops with
    | [a, b, c, d] => do return .xorbit (← registerOf a) (← numberOf b) (← numberOf c) (← numberOf d)
    | _ => none
  else if mnemonic = "frombyte".toList then formRegTwo .frombyte ops
  else if mnemonic = "tobyte".toList then formReg .tobyte ops
  else if mnemonic = "mul".toList then
    match ops with
    | [a, b, c] => do return .mul (← registerOf a) (← registerOf b) (← registerOf c)
    | _ => none
  else if mnemonic = "enc".toList then formNum .enc ops
  else if mnemonic = "dec".toList then formNum .dec ops
  else none

/-- One line of assembler text: a mnemonic, a blank, operands between commas (30_encoding R79). -/
def parseLine (line : String) : Option AsmForm :=
  let t := trimBlanks line.toList
  formOf (t.takeWhile (· ≠ ' ')) (operandsOf (t.dropWhile (· ≠ ' ')))

/-- One line of assembler text to its one command word (30_encoding R79, R80). -/
def assembleLine (line : String) : Option Word :=
  match parseLine line with
  | some f => assemble f
  | none => none

end Sys2Proof.Machine
end

