-- ==== Sys2Proof/Machine/HostStream.lean ====
section
/-! DEFINITION. The HOST's byte stream framing, outside the block (spec 60_exceptions R207, R208; 00_scope R6 leaves it
out of the block): which commands a host issues for a stream and what it makes of the responses. -/

namespace Sys2Proof.Machine

/-- Byte x becomes `enc x[3:0]` and then `enc x[7:4]` (60_exceptions R207). -/
def encodeByteCommands (x : Byte) : List Word :=
  [encode (.enc ((x.extractLsb' 0 4).setWidth 8)), encode (.enc ((x.extractLsb' 4 4).setWidth 8))]

/-- The commands that encode a stream. -/
def encodeStreamCommands : List Byte → List Word
  | [] => []
  | x :: xs => encodeByteCommands x ++ encodeStreamCommands xs

/-- The bytes an encoding host emits: the RES values in order (60_exceptions R207). -/
def encodedBytes (rsps : List Word) : List Byte := rsps.map rspRes

/-- The codeword bytes of a stream taken in pairs, or `none` where one byte stays unpaired: the host rejects the input
as malformed (60_exceptions R208; log entry 12). -/
def codewordPairs : List Byte → Option (List (Byte × Byte))
  | [] => some []
  | [_] => none
  | c0 :: c1 :: cs => (codewordPairs cs).map ((c0, c1) :: ·)

/-- The commands that decode a stream: a pair (c0, c1) becomes `dec c0` and then `dec c1` (60_exceptions R207). They are
the commands of a host that gets to the end of the stream; one whose policy aborts issues those up to the aborted pair
(log entry 11). -/
def decodeStreamCommands (cs : List Byte) : Option (List Word) :=
  (codewordPairs cs).map (fun ps => ps.flatMap (fun p => [encode (.dec p.1), encode (.dec p.2)]))

/-- What the host does about a pair of responses: it emits RES1[3:0] above RES0[3:0] and goes on; but it checks STAT0 and
STAT1 first, and where either is UNCORRECTABLE its open policy decides (60_exceptions R206, R207). DESIGN CHOICE, log
entry 11: that policy is a function of the two response words. -/
def decodedPair (r0 r1 : Word) : PairOutcome :=
  if rspStat r0 = Stat.uncorrectable.code ∨ rspStat r1 = Stat.uncorrectable.code then
    Config.hostUncorrectablePolicy r0 r1
  else .goOn (some ((rspRes r1).extractLsb' 0 4 ++ (rspRes r0).extractLsb' 0 4))

/-- The bytes a decoding host emits for the responses of a decoded stream, in order. After an UNCORRECTABLE pair the spec
leaves it to the host to go on or to abort (93_implementation_defined U13); here the open policy decides, and an aborted
stream emits nothing more (log entry 11). -/
def decodedBytes : List Word → List Byte
  | r0 :: r1 :: rs =>
    match decodedPair r0 r1 with
    | .goOn byte => byte.toList ++ decodedBytes rs
    | .abort => []
  | _ => []

end Sys2Proof.Machine
end

