-- ==== Sys2Proof/Safety.lean ====
section
/-! DEFINITION. The terms the statements use: the storage invariant and the invariant of the whole machine, what a
command leaves unchanged, and how a command answers (spec 10_state R23, R24, R35; 30_encoding R78; 60_exceptions R193,
R194). -/

namespace Sys2Proof.Machine

/-! ## Invariants -/

/-- The storage invariant of one matrix register: the shape limits (10_state R24), an absent register is all zero, and
no bit at an index ≥ rows*cols is 1 (R23). -/
abbrev MatrixReg.Wf (M : MatrixReg) : Prop :=
  M.rows.toNat ≤ 8 ∧ M.cols.toNat ≤ 8 ∧
  (M.present = false → M.rows = 0 ∧ M.cols = 0 ∧ M.bits = 0) ∧
  (∀ i, i < 64 → M.area ≤ i → M.bits.getLsbD i = false)

/-- Every matrix register keeps the storage invariant (10_state R23, R24). -/
abbrev State.StorageInv (s : State) : Prop := ∀ i : RegNo, (s.readMR i).Wf

/-- A fault is recorded exactly when FSTICKY is 1 (10_state R32, R33; 60_exceptions R194). -/
abbrev State.RecordInv (s : State) : Prop := s.fsticky = true ↔ s.fcause ≠ .none

/-- A response word the block can return: bits 31:17 are 0, FSTICKY is 1 exactly with a cause, and a response that
reports a fault shows FSTICKY = 1 (30_encoding R78; 60_exceptions R194). -/
abbrev ResponseLegal (r : Word) : Prop :=
  rspZero r = 0 ∧ (rspSticky r = 1 ↔ rspCause r ≠ 0) ∧ (rspFault r ≠ 0 → rspSticky r = 1)

/-- The invariant of the machine. -/
abbrev State.Inv (s : State) : Prop :=
  s.StorageInv ∧ s.RecordInv ∧ ∀ r, r ∈ s.responses → ResponseLegal r

/-! ## What stays the same -/

/-- No matrix register changed. -/
def SameMatrices (s t : State) : Prop := ∀ j : RegNo, t.readMR j = s.readMR j

/-- No matrix register but `md` changed. -/
def SameMatricesBut (md : RegNo) (s t : State) : Prop := ∀ j : RegNo, j ≠ md → t.readMR j = s.readMR j

/-- The fault record did not change. -/
def SameRecord (s t : State) : Prop := t.fsticky = s.fsticky ∧ t.fcause = s.fcause

/-- Nothing of the block's state (10_state R20) changed. -/
def SameBlock (s t : State) : Prop :=
  SameMatrices s t ∧ t.res = s.res ∧ t.stat = s.stat ∧ SameRecord s t

/-! ## How a command answers -/

/-- `r` is the response word of a command that ended in state `t` with fault code `f` (30_encoding R78). -/
def ResponseOf (t : State) (f : FaultCode) (r : Word) : Prop :=
  rspRes r = t.res ∧ rspStat r = t.stat.code ∧ rspFault r = f.code ∧
  rspSticky r = BitVec.ofBool t.fsticky ∧ rspCause r = t.fcause.code ∧ rspZero r = 0

/-- The command returned exactly one response word, with fault code `f`, and took nothing else from the host. -/
def Answered (s t : State) (f : FaultCode) : Prop :=
  t.hostEvents = s.hostEvents ∧ ∃ r, t.responses = s.responses ++ [r] ∧ ResponseOf t f r

/-- The command completed and changed nothing. -/
def Unchanged (s t : State) : Prop := SameBlock s t ∧ Answered s t .none

/-- The command completed, and its one change is `MR[md] = M`. -/
def WroteMatrix (md : RegNo) (M : MatrixReg) (s t : State) : Prop :=
  t.readMR md = M ∧ SameMatricesBut md s t ∧ t.res = s.res ∧ t.stat = s.stat ∧ SameRecord s t ∧ Answered s t .none

/-- The command completed, and its one change is `RES = v`. -/
def WroteRes (v : Byte) (s t : State) : Prop :=
  t.res = v ∧ SameMatrices s t ∧ t.stat = s.stat ∧ SameRecord s t ∧ Answered s t .none

/-- The command completed, and its one change is that cell (r, c) of `MR[md]` became `b` (10_state R22, R35: the bits
field only). -/
def WroteCell (md : RegNo) (r c : Shape) (b : Bool) (s t : State) : Prop :=
  (t.readMR md).present = (s.readMR md).present ∧ (t.readMR md).rows = (s.readMR md).rows ∧
  (t.readMR md).cols = (s.readMR md).cols ∧
  (∀ k, (t.readMR md).bits.getLsbD k =
    if k = r.toNat * (s.readMR md).cols.toNat + c.toNat then b else (s.readMR md).bits.getLsbD k) ∧
  SameMatricesBut md s t ∧ t.res = s.res ∧ t.stat = s.stat ∧ SameRecord s t ∧ Answered s t .none

/-- The command completed, and its changes are `RES = v` and `STAT = x`. -/
def Decoded (v : Byte) (x : Stat) (s t : State) : Prop :=
  t.res = v ∧ t.stat = x ∧ SameMatrices s t ∧ SameRecord s t ∧ Answered s t .none

/-- The command ended in the fault `f`: nothing changed but the fault record, which keeps the first cause
(60_exceptions R193, R194). -/
def Faulted (f : FaultCode) (s t : State) : Prop :=
  SameMatrices s t ∧ t.res = s.res ∧ t.stat = s.stat ∧
  t.fsticky = true ∧ t.fcause = (if s.fsticky = true then s.fcause else f) ∧ Answered s t f

/-- The register is one a command may write (20_memory R52). -/
abbrev General (i : RegNo) : Prop := i ≠ 6 ∧ i ≠ 7

/-- The cell (r, c) lies inside the register's matrix (20_memory R51). -/
abbrev CellIn (M : MatrixReg) (r c : Shape) : Prop := r.toNat < M.rows.toNat ∧ c.toNat < M.cols.toNat

/-- The register number names a constant (20_memory R52). -/
abbrev Constant (i : RegNo) : Prop := i = 6 ∨ i = 7

/-- Absent, or with a dimension 0 (42_convert_multiply R142). -/
abbrev Degenerate (M : MatrixReg) : Prop := M.present = false ∨ M.rows = 0 ∨ M.cols = 0

/-- The commands with a destination matrix register, and which one it is (10_state R35; 60_exceptions R192). -/
def target : Instr → Option RegNo
  | .create md _ _ | .free md | .setbit md _ _ | .clrbit md _ _ | .tglbit md _ _ | .xorbit md _ _ _
  | .frombyte md _ _ | .mul md _ _ => some md
  | .nop | .rows _ | .cols _ | .len _ | .getbit _ _ _ | .tobyte _ | .enc _ | .dec _ => none

/-- The commands that write RES (10_state R30). -/
def writesRes : Instr → Bool
  | .rows _ | .cols _ | .len _ | .getbit _ _ _ | .tobyte _ | .enc _ | .dec _ => true
  | .nop | .create _ _ _ | .free _ | .setbit _ _ _ | .clrbit _ _ _ | .tglbit _ _ _ | .xorbit _ _ _ _
  | .frombyte _ _ _ | .mul _ _ _ => false

/-- The three kinds of command that may not leave the same state when issued twice (20_memory R56). -/
def mayDifferTwice : Instr → Bool
  | .tglbit _ _ _ => true
  | .xorbit _ _ _ b => b == 1
  | .mul md ma mb => md == ma || md == mb
  | .nop | .create _ _ _ | .free _ | .rows _ | .cols _ | .len _ | .getbit _ _ _ | .setbit _ _ _ | .clrbit _ _ _
  | .frombyte _ _ _ | .tobyte _ | .enc _ | .dec _ => false

/-- Two byte streams of one length whose bytes differ, each, in at most one bit (43_codec R166). -/
def OneBitApart : List Byte → List Byte → Prop
  | [], [] => True
  | c :: cs, d :: ds => (d = c ∨ ∃ p < 8, d = c ^^^ BitVec.ofNat 8 (2 ^ p)) ∧ OneBitApart cs ds
  | [], _ :: _ => False
  | _ :: _, [] => False

/-- Every command on the register `i` follows the absence policy in state `s` (40_storage R102; 41_bit_access R120). -/
def FollowsAbsence (i : RegNo) (s : State) : Prop :=
  (∀ c ∈ [Instr.rows i, .cols i, .len i, .tobyte i], ∃ t, exec c s = .next t ∧ WroteRes 0 s t) ∧
  (∀ r c, ∃ t, exec (.getbit i r c) s = .next t ∧ WroteRes 0 s t) ∧
  (∀ r c b, ∀ k ∈ [Instr.setbit i r c, .clrbit i r c, .tglbit i r c, .xorbit i r c b],
    ∃ t, exec k s = .next t ∧ Unchanged s t) ∧
  (∀ md j, General md → ∀ k ∈ [Instr.mul md i j, .mul md j i],
    ∃ t, exec k s = .next t ∧ Faulted .degenerateOperand s t)

/-- The command's word lies in the row `pattern`, `mask` of the opcode table and decodes back to it (30_encoding R76). -/
def InRow (i : Instr) (pattern mask : Word) : Prop := encode i &&& mask = pattern ∧ decode (encode i) = .ok i

/-- RSV and every field that the assigned opcode `op` does not use are 0 in `w`, row by row as the table of 30_encoding
R73 lists the used fields. -/
def UnusedFieldsZero (op : Nat) (w : Word) : Prop :=
  w.extractLsb' 14 2 = 0 ∧
  match op with
  | 0x00 => fieldMD w = 0 ∧ fieldMA w = 0 ∧ fieldMB w = 0 ∧ fieldFI w = 0 ∧ fieldFJ w = 0 ∧ fieldIMM8 w = 0
  | 0x01 => fieldMA w = 0 ∧ fieldMB w = 0 ∧ fieldIMM8 w = 0
  | 0x02 => fieldMA w = 0 ∧ fieldMB w = 0 ∧ fieldFI w = 0 ∧ fieldFJ w = 0 ∧ fieldIMM8 w = 0
  | 0x03 | 0x04 | 0x05 | 0x0C =>
    fieldMD w = 0 ∧ fieldMB w = 0 ∧ fieldFI w = 0 ∧ fieldFJ w = 0 ∧ fieldIMM8 w = 0
  | 0x06 => fieldMD w = 0 ∧ fieldMB w = 0 ∧ fieldIMM8 w = 0
  | 0x07 | 0x08 | 0x09 => fieldMA w = 0 ∧ fieldMB w = 0 ∧ fieldIMM8 w = 0
  | 0x0A => fieldMA w = 0 ∧ fieldMB w = 0 ∧ w.extractLsb' 25 7 = 0
  | 0x0B => fieldMA w = 0 ∧ fieldMB w = 0 ∧ fieldFJ w = 0
  | 0x0D => fieldFI w = 0 ∧ fieldFJ w = 0 ∧ fieldIMM8 w = 0
  | _ => fieldMD w = 0 ∧ fieldMA w = 0 ∧ fieldMB w = 0 ∧ fieldFI w = 0 ∧ fieldFJ w = 0

end Sys2Proof.Machine
end

