-- ==== Sys2Proof/Certificates/Slice0/Obligations.lean ====
section
/-! DEFINITION. The statements for the provers. Each one's docstring names the rule of spec/ it formalises; the terms
it uses are in Safety.lean. -/

open Sys2Proof Sys2Proof.Machine

/-! ## Encoding (30_encoding) -/

/-- R76, R77: decoding the word of any command gives it back, every operand at every value. -/
def Obligations.DecodeOfEncode : Prop := ∀ i : Instr, decode (encode i) = .ok i

/-- R73, R76, R77: a word that decodes to a command is that command's one word. -/
def Obligations.EncodeOfDecode : Prop := ∀ (w : Word) (i : Instr), decode w = .ok i → encode i = w

/-- R71, R77: the packed word as a number, and each of its fields read back. -/
def Obligations.PackedCommandFields : Prop :=
  ∀ (op : BitVec 5) (md ma mb : RegNo) (fi fj : Shape) (imm8 : Byte),
    (packCommand op md ma mb fi fj imm8).toNat = op.toNat + md.toNat * 2 ^ 5 + ma.toNat * 2 ^ 8 + mb.toNat * 2 ^ 11
      + fi.toNat * 2 ^ 16 + fj.toNat * 2 ^ 20 + imm8.toNat * 2 ^ 24 ∧
    fieldOP (packCommand op md ma mb fi fj imm8) = op ∧ fieldMD (packCommand op md ma mb fi fj imm8) = md ∧
    fieldMA (packCommand op md ma mb fi fj imm8) = ma ∧ fieldMB (packCommand op md ma mb fi fj imm8) = mb ∧
    (packCommand op md ma mb fi fj imm8).extractLsb' 14 2 = 0 ∧
    fieldFI (packCommand op md ma mb fi fj imm8) = fi ∧ fieldFJ (packCommand op md ma mb fi fj imm8) = fj ∧
    fieldIMM8 (packCommand op md ma mb fi fj imm8) = imm8

/-- R73, R74: which words are no command, by the used fields of each opcode, and that issuing one ends in
IllegalCommand. -/
def Obligations.IllegalWordsExactly : Prop :=
  ∀ w : Word,
    (16 ≤ (fieldOP w).toNat → decode w = .error .reservedOpcode ∧
      ∀ s, ∃ t, issue w s = .next t ∧ Faulted .illegalCommand s t) ∧
    ((fieldOP w).toNat < 16 → UnusedFieldsZero (fieldOP w).toNat w → ∃ i, decode w = .ok i) ∧
    ((fieldOP w).toNat < 16 → ¬ UnusedFieldsZero (fieldOP w).toNat w → decode w = .error .unusedFieldSet ∧
      ∀ s, ∃ t, issue w s = .next t ∧ Faulted .illegalCommand s t)

/-- R76: at most one row of the decode table can match a word. -/
def Obligations.DecodeRowsDisjoint : Prop :=
  encRows.Pairwise (fun a b => ∀ w : Word, ¬ (a.hits w = true ∧ b.hits w = true))

/-- Words of 95_test_vectors and of the rules' examples, one for each family, decode to their commands. -/
def Obligations.SampleWordsDecode : Prop :=
  decode 0x00000000 = .ok .nop ∧ decode 0x00840041 = .ok (.create 2 4 8) ∧ decode 0x000000E2 = .ok (.free 7) ∧
  decode 0x00000603 = .ok (.rows 6) ∧ decode 0x00370706 = .ok (.getbit 7 7 3) ∧
  decode 0x00300007 = .ok (.setbit 0 0 3) ∧ decode 0x0120000A = .ok (.xorbit 0 0 2 1) ∧
  decode 0x0B04000B = .ok (.frombyte 0 0x0B 4) ∧ decode 0x0000302D = .ok (.mul 1 0 6) ∧
  decode 0xF000000E = .ok (.enc 0xF0) ∧ decode 0x4A00000F = .ok (.dec 0x4A) ∧
  decode 0x00000010 = .error .reservedOpcode ∧ decode 0x0000800F = .error .unusedFieldSet

/-- R79, R80: an assembler form assembles to exactly one word, which decodes to its command, when every number fits its
field, and is refused otherwise. -/
def Obligations.AssembleOneWord : Prop :=
  ∀ f : AsmForm, (f.fits = true → ∃ w, assemble f = some w ∧ decode w = .ok (instrOfForm f)) ∧
    (f.fits = false → assemble f = none)

/-- R79: lines of text in each shape of operands, with the words 30_encoding and 95_test_vectors give them. -/
def Obligations.SampleLinesAssemble : Prop :=
  assembleLine "nop" = some 0x00000000 ∧ assembleLine "create m2, 4, 8" = some 0x00840041 ∧
  assembleLine "create m0, 9, 1" = some 0x00190001 ∧ assembleLine "free ht" = some 0x000000E2 ∧
  assembleLine "getbit g, 0, 5" = some 0x00500606 ∧ assembleLine "xorbit m0, 0, 2, 1" = some 0x0120000A ∧
  assembleLine "frombyte m0, 0x0B, 4" = some 0x0B04000B ∧ assembleLine "mul m1, m0, g" = some 0x0000302D ∧
  assembleLine "dec 0x4A" = some 0x4A00000F ∧
  assembleLine "create m0, 16, 1" = none ∧ assembleLine "xorbit m0, 0, 2, 2" = none ∧ assembleLine "enc 256" = none

/-! ## Reset and the constants (10_state, 70_reset_and_hazards) -/

/-- R37: the value of every piece of the block's state after reset. -/
def Obligations.ResetState : Prop :=
  (∀ i : RegNo, General i → State.reset.readMR i = { present := false, rows := 0, cols := 0, bits := 0 }) ∧
  State.reset.readMR 6 = { present := true, rows := 4, cols := 8, bits := 0x78B4D2E1 } ∧
  State.reset.readMR 7 = { present := true, rows := 8, cols := 4, bits := 0x84217BDE } ∧
  State.reset.res = 0x00 ∧ State.reset.stat.code = 3 ∧ State.reset.fsticky = false ∧ State.reset.fcause.code = 0 ∧
  (List.range 16).map (fun k => slut (BitVec.ofNat 4 k)) = [none, some 4, some 5, none, some 6, none, none, some 3,
    some 7, none, none, some 2, none, some 1, some 0, none]

/-- R26, R28: MR6 reads G in every state, and G is `[I₄ | P]` cell by cell. -/
def Obligations.GeneratorIsConstant : Prop :=
  (∀ s : State, s.readMR 6 = { present := true, rows := 4, cols := 8, bits := 0x0000000078B4D2E1 }) ∧
  (∀ s : State, ∀ r < 4, ∀ c < 8,
    (s.readMR 6).cell r c = if c < 4 then decide (r = c) else if r = c - 4 then false else true) ∧
  (List.range 4).map (fun r => genMatrix.bits.extractLsb' (8 * r) 8) = [0xE1#8, 0xD2#8, 0xB4#8, 0x78#8]

/-- R27: MR7 reads Ht in every state, and Ht is `[P ; I₄]` cell by cell. -/
def Obligations.ParityIsConstant : Prop :=
  (∀ s : State, s.readMR 7 = { present := true, rows := 8, cols := 4, bits := 0x0000000084217BDE }) ∧
  (∀ s : State, ∀ r < 8, ∀ c < 4,
    (s.readMR 7).cell r c = if r < 4 then (if r = c then false else true) else decide (r - 4 = c)) ∧
  (List.range 8).map (fun r => parMatrix.bits.extractLsb' (4 * r) 4)
    = [0xE#4, 0xD#4, 0xB#4, 0x7#4, 0x1#4, 0x2#4, 0x4#4, 0x8#4]

/-- R29, R162: an entry of SLUT names position p exactly when row p of Ht, read as a nibble, is the syndrome; the other
seven nonzero syndromes are ERR, and entry 0 has valid = 0. -/
def Obligations.LocatorInvertsParityRows : Prop :=
  (∀ (x : Nibble) (p : BitVec 3), slut x = some p ↔ parMatrix.bits.extractLsb' (4 * p.toNat) 4 = x) ∧
  (∀ x : Nibble, slut x = none ↔ x.toNat ∈ [0, 3, 5, 6, 9, 10, 12, 15])

/-- R220, R221, R222: asserting reset, with a command outstanding or with none, puts the whole block in its reset state
and returns no response. MODEL'S CHOICE (log entry 5): the host's later transactions and the responses it already holds
stay as they were. -/
def Obligations.ResetAssertion : Prop :=
  ∀ (s : State) (e : HostEvent) (rest : List HostEvent), s.hostEvents = e :: rest →
    (e = .reset ∨ ∃ w, e = .resetDuring w) →
    ∃ t, step s = .next t ∧ SameBlock State.reset t ∧ t.responses = s.responses ∧ t.hostEvents = rest

/-! ## The step -/

/-- R58, R76: a step whose next transaction is a word that decodes to `i` is `exec i` on the state with that
transaction taken off the list, and nothing else. -/
def Obligations.StepRunsDecodedCommand : Prop :=
  ∀ (s : State) (w : Word) (i : Instr) (rest : List HostEvent),
    s.hostEvents = .command w :: rest → decode w = .ok i → step s = exec i { s with hostEvents := rest }

/-- R76, R190, R193, R194: a step whose next transaction is a word that is no command ends in IllegalCommand. -/
def Obligations.StepIllegalCommand : Prop :=
  ∀ (s : State) (w : Word) (why : DecodeReject) (rest : List HostEvent),
    s.hostEvents = .command w :: rest → decode w = .error why →
    ∃ t, step s = .next t ∧ Faulted .illegalCommand { s with hostEvents := rest } t

/-- MODEL'S CHOICE (log entry 3; R204 says only that all state is held): with no transaction left a step changes
nothing. -/
def Obligations.StepIdles : Prop := ∀ s : State, s.hostEvents = [] → step s = .next s

/-- R190, R205, R228: no fault stops the block, and every command answers a next state; R220: so does reset. The step with
no transaction left, which this covers too, answers one by the MODEL'S CHOICE of log entry 3. -/
def Obligations.StepNeverStops : Prop := ∀ s : State, ∃ t, step s = .next t

/-- R205, R228: a run of n commands completes after exactly n steps and returns exactly n responses, whatever the
commands are and whatever the state. -/
def Obligations.RunAnswersEachCommand : Prop :=
  ∀ (ws : List Word) (rest : List HostEvent) (s : State), s.hostEvents = ws.map .command ++ rest →
    ∃ (t : State) (rs : List Word), Sys2Proof.core.run ws.length s = .next t ∧ t.hostEvents = rest ∧
      t.responses = s.responses ++ rs ∧ rs.length = ws.length

/-- R32, R33, R194: over a run of commands FSTICKY becomes 1 exactly when some response reports a fault, and FCAUSE is
the first fault reported, or what it was. -/
def Obligations.RunRecordsFirstFault : Prop :=
  ∀ (ws : List Word) (rest : List HostEvent) (s : State), s.hostEvents = ws.map .command ++ rest →
    ∃ (t : State) (rs : List Word), Sys2Proof.core.run ws.length s = .next t ∧ t.responses = s.responses ++ rs ∧
      (t.fsticky = true ↔ s.fsticky = true ∨ ∃ r ∈ rs, rspFault r ≠ 0) ∧
      (s.fsticky = true → t.fcause = s.fcause) ∧
      (s.fsticky = false → t.fcause.code = ((rs.map rspFault).find? (· != 0)).getD s.fcause.code)

/-! ## Invariants -/

/-- R23, R24, R32, R33, R78: every step keeps the storage invariant of all eight matrix registers, the fault record's
invariant and the legal form of every response word. -/
def Obligations.StepKeepsInvariant : Prop := ∀ s t : State, s.Inv → step s = .next t → t.Inv

/-- The invariant that StepKeepsInvariant speaks of holds right after reset. -/
def Obligations.ResetHasInvariant : Prop := State.reset.Inv

/-! ## Rules over all commands -/

/-- R78: every accepted command word, faulting or not, returns exactly one response word, with the fields R78 names
taken from the state after the command. -/
def Obligations.ResponseWordFields : Prop :=
  ∀ (w : Word) (s : State), ∃ (t : State) (f : FaultCode), issue w s = .next t ∧ Answered s t f ∧
    ((∃ why, decode w = .error why) → f = .illegalCommand) ∧
    (f = .none → SameRecord s t) ∧ (f ≠ .none → t.fsticky = true)

/-- R193: a command whose response reports a fault changed no matrix register, not RES and not STAT, and the fault record
as R194 says. -/
def Obligations.FaultsArePrecise : Prop :=
  ∀ (w : Word) (s t : State) (f : FaultCode), issue w s = .next t → Answered s t f → f ≠ .none → Faulted f s t

/-- R194: the sticky fault record after a command with fault code `f`, and after one without a fault. -/
def Obligations.StickyFaultRecord : Prop :=
  ∀ (w : Word) (s t : State) (f : FaultCode), issue w s = .next t → Answered s t f →
    (f ≠ .none → t.fsticky = true ∧ t.fcause = if s.fsticky = false then f else s.fcause) ∧
    (f = .none → t.fsticky = s.fsticky ∧ t.fcause = s.fcause)

/-- R192, R195: which command reports which fault, with the order of the checks: ConstantWrite before the command's own
checks, DegenerateOperand before DimensionMismatch. -/
def Obligations.FaultCausesAndPriority : Prop :=
  ∀ (i : Instr) (s t : State) (f : FaultCode), exec i s = .next t → Answered s t f →
    (f = .constantWrite ↔ ∃ md, target i = some md ∧ Constant md) ∧
    (f = .allocationError ↔ ∃ md r c, i = .create md r c ∧ General md ∧ (8 < r.toNat ∨ 8 < c.toNat)) ∧
    (f = .invalidLength ↔ ∃ md b n, i = .frombyte md b n ∧ General md ∧ 8 < n.toNat) ∧
    (f = .indexOutOfRange ↔
      (∃ ma r c, i = .getbit ma r c ∧ (s.readMR ma).present = true ∧ ¬ CellIn (s.readMR ma) r c) ∨
      (∃ md r c b, i ∈ [Instr.setbit md r c, .clrbit md r c, .tglbit md r c, .xorbit md r c b] ∧ General md ∧
        (s.readMR md).present = true ∧ ¬ CellIn (s.readMR md) r c)) ∧
    (f = .degenerateOperand ↔ ∃ md ma mb, i = .mul md ma mb ∧ General md ∧
      (Degenerate (s.readMR ma) ∨ Degenerate (s.readMR mb))) ∧
    (f = .dimensionMismatch ↔ ∃ md ma mb, i = .mul md ma mb ∧ General md ∧ ¬ Degenerate (s.readMR ma) ∧
      ¬ Degenerate (s.readMR mb) ∧ (s.readMR ma).cols ≠ (s.readMR mb).rows) ∧
    f ≠ .illegalCommand

/-- R35: what each command may write. No command changes a matrix register other than its destination; the cell
mutators keep the shape and the present bit. -/
def Obligations.OnlyTheTargetIsWritten : Prop :=
  ∀ (i : Instr) (s t : State), exec i s = .next t →
    (∀ j : RegNo, target i ≠ some j → t.readMR j = s.readMR j) ∧
    (∀ md r c b, i ∈ [Instr.setbit md r c, .clrbit md r c, .tglbit md r c, .xorbit md r c b] →
      (t.readMR md).present = (s.readMR md).present ∧ (t.readMR md).rows = (s.readMR md).rows ∧
      (t.readMR md).cols = (s.readMR md).cols) ∧
    t.readMR 6 = s.readMR 6 ∧ t.readMR 7 = s.readMR 7

/-- R30: only ROWS, COLS, LEN, GETBIT, TOBYTE, ENC and DEC write RES, DEC only when it yields a message; and RES stands
in every response word. -/
def Obligations.OnlyValueCommandsWriteRes : Prop :=
  ∀ (i : Instr) (s t : State), exec i s = .next t →
    (writesRes i = false → t.res = s.res) ∧
    (∀ imm, i = .dec imm → t.stat = .uncorrectable → t.res = s.res) ∧
    ∃ r, t.responses = s.responses ++ [r] ∧ rspRes r = t.res

/-- R31: only DEC writes STAT, DEC never writes NONE, and the four codes. -/
def Obligations.OnlyDecWritesStat : Prop :=
  (∀ (i : Instr) (s t : State), exec i s = .next t →
    ((∀ imm, i ≠ .dec imm) → t.stat = s.stat) ∧ ((∃ imm, i = .dec imm) → t.stat ≠ .none)) ∧
  Stat.ok.code = 0 ∧ Stat.corrected.code = 1 ∧ Stat.uncorrectable.code = 2 ∧ Stat.none.code = 3

/-- R56: issuing a command twice in a row leaves the same state of the block as issuing it once, but for TGLBIT, XORBIT
with b = 1, and MUL whose destination is one of its sources. -/
def Obligations.IssuingTwiceIsIssuingOnce : Prop :=
  ∀ (i : Instr) (s t u : State), mayDifferTwice i = false → exec i s = .next t → exec i t = .next u → SameBlock t u

/-- R58: what a command does to the block, and the response it returns, depend on nothing but the block's state: not on
what the host still has to issue and not on earlier responses. -/
def Obligations.CommandsReadTheBlockAlone : Prop :=
  ∀ (w : Word) (s₁ s₂ t₁ t₂ : State), SameBlock s₁ s₂ → issue w s₁ = .next t₁ → issue w s₂ = .next t₂ →
    SameBlock t₁ t₂ ∧ t₁.responses.getLast? = t₂.responses.getLast?

/-- R164, R202: the result of ENC and DEC depends on the operand alone, not on RES, STAT, the matrix registers or the
fault record. -/
def Obligations.CodecReadsItsOperandAlone : Prop :=
  ∀ (imm : Byte) (s₁ s₂ t₁ t₂ : State),
    (exec (.enc imm) s₁ = .next t₁ → exec (.enc imm) s₂ = .next t₂ → t₁.res = t₂.res) ∧
    (exec (.dec imm) s₁ = .next t₁ → exec (.dec imm) s₂ = .next t₂ →
      t₁.stat = t₂.stat ∧ (t₁.stat ≠ .uncorrectable → t₁.res = t₂.res))

/-! ## Storage and shape commands (40_storage) -/

/-- R100: NOP changes nothing and answers; a word with OP = 0x00 and any other bit set is no command. -/
def Obligations.NopOnlyAnswers : Prop :=
  InRow .nop 0x00000000 0xFFFFFFFF ∧ (∀ s, ∃ t, exec .nop s = .next t ∧ Unchanged s t) ∧
  ∀ w : Word, fieldOP w = 0 → w ≠ 0 →
    decode w = .error .unusedFieldSet ∧ ∀ s, ∃ t, issue w s = .next t ∧ Faulted .illegalCommand s t

/-- R101: CREATE. -/
def Obligations.CreateMakesZeroMatrix : Prop :=
  encode (.create 2 4 8) = 0x00840041 ∧ encode (.create 2 9 1) = 0x00190041 ∧
  ∀ (md : RegNo) (rows cols : Shape) (s : State),
    InRow (.create md rows cols) 0x00000001 0xFF00FF1F ∧
    (General md → rows.toNat ≤ 8 → cols.toNat ≤ 8 → ∃ t, exec (.create md rows cols) s = .next t ∧
      WroteMatrix md { present := true, rows := rows, cols := cols, bits := 0 } s t) ∧
    (Constant md → ∃ t, exec (.create md rows cols) s = .next t ∧ Faulted .constantWrite s t) ∧
    (General md → 8 < rows.toNat ∨ 8 < cols.toNat →
      ∃ t, exec (.create md rows cols) s = .next t ∧ Faulted .allocationError s t)

/-- R102: FREE; afterwards every command on the register follows the absence policy. -/
def Obligations.FreeMakesAbsent : Prop :=
  encode (.free 2) = 0x00000042 ∧ encode (.rows 2) = 0x00000203 ∧
  ∀ (md : RegNo) (s : State),
    InRow (.free md) 0x00000002 0xFFFFFF1F ∧
    (General md → ∃ t, exec (.free md) s = .next t ∧
      WroteMatrix md { present := false, rows := 0, cols := 0, bits := 0 } s t ∧ FollowsAbsence md t) ∧
    (Constant md → ∃ t, exec (.free md) s = .next t ∧ Faulted .constantWrite s t)

/-- R102, R120: every command on an absent register follows the absence policy, in any state. -/
def Obligations.AbsencePolicy : Prop :=
  ∀ (i : RegNo) (s : State), s.readMR i = { present := false, rows := 0, cols := 0, bits := 0 } → FollowsAbsence i s

/-- R103: ROWS. -/
def Obligations.RowsReadsRowCount : Prop :=
  encode (.rows 6) = 0x00000603 ∧
  (∀ (ma : RegNo) (s : State), InRow (.rows ma) 0x00000003 0xFFFFF8FF ∧
    ∃ t, exec (.rows ma) s = .next t ∧ WroteRes ((s.readMR ma).rows.setWidth 8) s t ∧
      (s.StorageInv → (s.readMR ma).present = false → t.res = 0)) ∧
  ∀ s, (∃ t, exec (.rows 6) s = .next t ∧ t.res = 4) ∧ (∃ t, exec (.rows 7) s = .next t ∧ t.res = 8)

/-- R104: COLS. -/
def Obligations.ColsReadsColumnCount : Prop :=
  encode (.cols 7) = 0x00000704 ∧
  (∀ (ma : RegNo) (s : State), InRow (.cols ma) 0x00000004 0xFFFFF8FF ∧
    ∃ t, exec (.cols ma) s = .next t ∧ WroteRes ((s.readMR ma).cols.setWidth 8) s t ∧
      (s.StorageInv → (s.readMR ma).present = false → t.res = 0)) ∧
  ∀ s, (∃ t, exec (.cols 6) s = .next t ∧ t.res = 8) ∧ (∃ t, exec (.cols 7) s = .next t ∧ t.res = 4)

/-- R105: LEN; the product fits RES in every state with the storage invariant. -/
def Obligations.LenReadsCellCount : Prop :=
  encode (.len 6) = 0x00000605 ∧
  (∀ (ma : RegNo) (s : State), InRow (.len ma) 0x00000005 0xFFFFF8FF ∧
    ∃ t, exec (.len ma) s = .next t ∧
      WroteRes (BitVec.ofNat 8 ((s.readMR ma).rows.toNat * (s.readMR ma).cols.toNat)) s t ∧
      (s.StorageInv → t.res.toNat = (s.readMR ma).rows.toNat * (s.readMR ma).cols.toNat ∧ t.res.toNat ≤ 64 ∧
        ((s.readMR ma).present = false → t.res = 0))) ∧
  ∀ s, ∃ t, exec (.len 6) s = .next t ∧ t.res = 0x20

/-! ## Cell access commands (41_bit_access) -/

/-- R120: the cell check and the absence policy, shared by the five cell commands. -/
def Obligations.CellCheckAndAbsence : Prop :=
  ∀ (x : RegNo) (r c : Shape) (b : BitVec 1) (s : State),
    ((s.readMR x).present = false →
      (∃ t, exec (.getbit x r c) s = .next t ∧ WroteRes 0 s t) ∧
      (General x → ∀ k ∈ [Instr.setbit x r c, .clrbit x r c, .tglbit x r c, .xorbit x r c b],
        ∃ t, exec k s = .next t ∧ Unchanged s t)) ∧
    ((s.readMR x).present = true → (s.readMR x).rows ≤ r ∨ (s.readMR x).cols ≤ c →
      (∃ t, exec (.getbit x r c) s = .next t ∧ Faulted .indexOutOfRange s t) ∧
      (General x → ∀ k ∈ [Instr.setbit x r c, .clrbit x r c, .tglbit x r c, .xorbit x r c b],
        ∃ t, exec k s = .next t ∧ Faulted .indexOutOfRange s t)) ∧
    ((s.readMR x).present = true → ¬ ((s.readMR x).rows ≤ r ∨ (s.readMR x).cols ≤ c) →
      cellIndex (s.readMR x) r c = some (r.toNat * (s.readMR x).cols.toNat + c.toNat) ∧
      ∀ k ∈ [Instr.getbit x r c, .setbit x r c, .clrbit x r c, .tglbit x r c, .xorbit x r c b],
        k = .getbit x r c ∨ General x → ∃ t, exec k s = .next t ∧ Answered s t .none)

/-- R121: GETBIT. -/
def Obligations.GetbitReadsCell : Prop :=
  encode (.getbit 6 0 5) = 0x00500606 ∧
  (∀ s, ∃ t, exec (.getbit 6 0 5) s = .next t ∧ t.res = 1) ∧
  ∀ (ma : RegNo) (r c : Shape) (s : State),
    InRow (.getbit ma r c) 0x00000006 0xFF00F8FF ∧
    ((s.readMR ma).present = false → ∃ t, exec (.getbit ma r c) s = .next t ∧ WroteRes 0 s t) ∧
    ((s.readMR ma).present = true → ¬ CellIn (s.readMR ma) r c →
      ∃ t, exec (.getbit ma r c) s = .next t ∧ Faulted .indexOutOfRange s t) ∧
    ((s.readMR ma).present = true → CellIn (s.readMR ma) r c →
      ∃ t, exec (.getbit ma r c) s = .next t ∧
        WroteRes (if (s.readMR ma).bits.getLsbD (r.toNat * (s.readMR ma).cols.toNat + c.toNat) = true then 1 else 0) s t)

/-- R122: SETBIT. -/
def Obligations.SetbitSetsCell : Prop :=
  encode (.setbit 0 0 3) = 0x00300007 ∧
  ∀ (md : RegNo) (r c : Shape) (s : State), s.StorageInv →
    InRow (.setbit md r c) 0x00000007 0xFF00FF1F ∧
    (Constant md → ∃ t, exec (.setbit md r c) s = .next t ∧ Faulted .constantWrite s t) ∧
    (General md → (s.readMR md).present = false → ∃ t, exec (.setbit md r c) s = .next t ∧ Unchanged s t) ∧
    (General md → (s.readMR md).present = true → ¬ CellIn (s.readMR md) r c →
      ∃ t, exec (.setbit md r c) s = .next t ∧ Faulted .indexOutOfRange s t) ∧
    (General md → (s.readMR md).present = true → CellIn (s.readMR md) r c →
      ∃ t, exec (.setbit md r c) s = .next t ∧ WroteCell md r c true s t)

/-- R123: CLRBIT. -/
def Obligations.ClrbitClearsCell : Prop :=
  encode (.clrbit 0 0 7) = 0x00700008 ∧
  ∀ (md : RegNo) (r c : Shape) (s : State), s.StorageInv →
    InRow (.clrbit md r c) 0x00000008 0xFF00FF1F ∧
    (Constant md → ∃ t, exec (.clrbit md r c) s = .next t ∧ Faulted .constantWrite s t) ∧
    (General md → (s.readMR md).present = false → ∃ t, exec (.clrbit md r c) s = .next t ∧ Unchanged s t) ∧
    (General md → (s.readMR md).present = true → ¬ CellIn (s.readMR md) r c →
      ∃ t, exec (.clrbit md r c) s = .next t ∧ Faulted .indexOutOfRange s t) ∧
    (General md → (s.readMR md).present = true → CellIn (s.readMR md) r c →
      ∃ t, exec (.clrbit md r c) s = .next t ∧ WroteCell md r c false s t)

/-- R124: TGLBIT; it is XORBIT with b = 1, and two of the same cell restore the matrix. -/
def Obligations.TglbitInvertsCell : Prop :=
  encode (.tglbit 0 0 0) = 0x00000009 ∧
  (∀ (md : RegNo) (r c : Shape) (s : State), exec (.tglbit md r c) s = exec (.xorbit md r c 1) s) ∧
  ∀ (md : RegNo) (r c : Shape) (s : State), s.StorageInv →
    InRow (.tglbit md r c) 0x00000009 0xFF00FF1F ∧
    (Constant md → ∃ t, exec (.tglbit md r c) s = .next t ∧ Faulted .constantWrite s t) ∧
    (General md → (s.readMR md).present = false → ∃ t, exec (.tglbit md r c) s = .next t ∧ Unchanged s t) ∧
    (General md → (s.readMR md).present = true → ¬ CellIn (s.readMR md) r c →
      ∃ t, exec (.tglbit md r c) s = .next t ∧ Faulted .indexOutOfRange s t) ∧
    (General md → (s.readMR md).present = true → CellIn (s.readMR md) r c →
      ∃ t, exec (.tglbit md r c) s = .next t ∧
        WroteCell md r c (!(s.readMR md).bits.getLsbD (r.toNat * (s.readMR md).cols.toNat + c.toNat)) s t ∧
        ∃ u, exec (.tglbit md r c) t = .next u ∧ SameMatrices s u)

/-- R125: XORBIT; both checks apply for b = 0 too. -/
def Obligations.XorbitAddsIntoCell : Prop :=
  encode (.xorbit 0 0 2 1) = 0x0120000A ∧
  ∀ (md : RegNo) (r c : Shape) (b : BitVec 1) (s : State), s.StorageInv →
    InRow (.xorbit md r c b) 0x0000000A 0xFE00FF1F ∧
    (Constant md → ∃ t, exec (.xorbit md r c b) s = .next t ∧ Faulted .constantWrite s t) ∧
    (General md → (s.readMR md).present = false → ∃ t, exec (.xorbit md r c b) s = .next t ∧ Unchanged s t) ∧
    (General md → (s.readMR md).present = true → ¬ CellIn (s.readMR md) r c →
      ∃ t, exec (.xorbit md r c b) s = .next t ∧ Faulted .indexOutOfRange s t) ∧
    (General md → (s.readMR md).present = true → CellIn (s.readMR md) r c →
      ∃ t, exec (.xorbit md r c b) s = .next t ∧
        WroteCell md r c
          ((s.readMR md).bits.getLsbD (r.toNat * (s.readMR md).cols.toNat + c.toNat) ^^ decide (b = 1)) s t)

/-- R22, R51: cells do not overlap. After SETBIT or CLRBIT of a valid cell, GETBIT of that cell reads 1 or 0, and GETBIT
of every other valid cell of every register reads what it read before. -/
def Obligations.CellsAreSeparate : Prop :=
  ∀ (md x : RegNo) (r c r' c' : Shape) (b : Bool) (s : State), s.StorageInv → General md →
    (s.readMR md).present = true → CellIn (s.readMR md) r c →
    (s.readMR x).present = true → CellIn (s.readMR x) r' c' →
    ∃ t u v, exec (if b then .setbit md r c else .clrbit md r c) s = .next t ∧
      exec (.getbit x r' c') t = .next u ∧ exec (.getbit x r' c') s = .next v ∧
      u.res = if x = md ∧ r' = r ∧ c' = c then (if b then 1 else 0) else v.res

/-! ## Byte conversion and multiplication (42_convert_multiply) -/

/-- R140: FROMBYTE. -/
def Obligations.FrombyteBuildsRow : Prop :=
  encode (.frombyte 0 0x0B 4) = 0x0B04000B ∧
  ∀ (md : RegNo) (b : Byte) (n : Shape) (s : State),
    InRow (.frombyte md b n) 0x0000000B 0x00F0FF1F ∧
    (Constant md → ∃ t, exec (.frombyte md b n) s = .next t ∧ Faulted .constantWrite s t) ∧
    (General md → 8 < n.toNat → ∃ t, exec (.frombyte md b n) s = .next t ∧ Faulted .invalidLength s t) ∧
    (General md → n.toNat ≤ 8 → ∃ (t : State) (M : MatrixReg), exec (.frombyte md b n) s = .next t ∧
      WroteMatrix md M s t ∧ M.present = true ∧ M.rows = 1 ∧ M.cols = n ∧
      M.bits.toNat = b.toNat % 2 ^ n.toNat ∧ ∀ k, M.bits.getLsbD k = (decide (k < n.toNat) && b.getLsbD k))

/-- R141: TOBYTE. -/
def Obligations.TobytePacksRowZero : Prop :=
  encode (.tobyte 0) = 0x0000000C ∧
  (∀ s, (∃ t, exec (.tobyte 6) s = .next t ∧ t.res = 0xE1) ∧ (∃ t, exec (.tobyte 7) s = .next t ∧ t.res = 0x0E)) ∧
  ∀ (ma : RegNo) (s : State),
    InRow (.tobyte ma) 0x0000000C 0xFFFFF8FF ∧
    ((s.readMR ma).present = false ∨ (s.readMR ma).rows = 0 →
      ∃ t, exec (.tobyte ma) s = .next t ∧ WroteRes 0 s t) ∧
    ((s.readMR ma).present = true → (s.readMR ma).rows ≠ 0 →
      ∃ (t : State) (v : Byte), exec (.tobyte ma) s = .next t ∧ WroteRes v s t ∧
        ∀ c < 8, v.getLsbD c = (decide (c < (s.readMR ma).cols.toNat) && (s.readMR ma).bits.getLsbD c))

/-- R145: FROMBYTE and then TOBYTE gives `b and ((1<<n)-1)`, for every byte and every n in 0..8. -/
def Obligations.ByteRoundTrip : Prop :=
  ∀ (md : RegNo) (b : Byte) (n : Shape) (s : State), General md → n.toNat ≤ 8 →
    ∃ t u, exec (.frombyte md b n) s = .next t ∧ exec (.tobyte md) t = .next u ∧
      u.res = b &&& BitVec.ofNat 8 (2 ^ n.toNat - 1)

/-- R142: MUL. Each cell of the product is the parity of the number of positions where the row of A and the column of B
are both 1, with A and B read before the destination is written. -/
def Obligations.MulIsMatrixProduct : Prop :=
  encode (.mul 1 0 6) = 0x0000302D ∧
  ∀ (md ma mb : RegNo) (s : State), s.StorageInv →
    InRow (.mul md ma mb) 0x0000000D 0xFFFFC01F ∧
    (Constant md → ∃ t, exec (.mul md ma mb) s = .next t ∧ Faulted .constantWrite s t) ∧
    (General md → Degenerate (s.readMR ma) ∨ Degenerate (s.readMR mb) →
      ∃ t, exec (.mul md ma mb) s = .next t ∧ Faulted .degenerateOperand s t) ∧
    (General md → ¬ Degenerate (s.readMR ma) → ¬ Degenerate (s.readMR mb) →
      (s.readMR ma).cols ≠ (s.readMR mb).rows →
      ∃ t, exec (.mul md ma mb) s = .next t ∧ Faulted .dimensionMismatch s t) ∧
    (General md → ¬ Degenerate (s.readMR ma) → ¬ Degenerate (s.readMR mb) →
      (s.readMR ma).cols = (s.readMR mb).rows →
      ∃ (t : State) (R : MatrixReg), exec (.mul md ma mb) s = .next t ∧ WroteMatrix md R s t ∧
        R.present = true ∧ R.rows = (s.readMR ma).rows ∧ R.cols = (s.readMR mb).cols ∧ R.Wf ∧
        ∀ i j, i < R.rows.toNat → j < R.cols.toNat → R.cell i j = decide ((List.range (s.readMR ma).cols.toNat).countP
          (fun k => (s.readMR ma).cell i k && (s.readMR mb).cell k j) % 2 = 1))

/-- V-MUL of 95_test_vectors, derived from R142: G·Ht is the 4×4 zero matrix, and Ht·G has the rows listed there. -/
def Obligations.ConstantProducts : Prop :=
  ∀ (md : RegNo) (s : State), General md →
    (∃ t, exec (.mul md 6 7) s = .next t ∧ WroteMatrix md { present := true, rows := 4, cols := 4, bits := 0 } s t) ∧
    (∃ t, exec (.mul md 7 6) s = .next t ∧
      WroteMatrix md { present := true, rows := 8, cols := 8, bits := 0x78B4D2E1874B2D1E } s t)

/-! ## The codec (43_codec) -/

/-- R160: ENC, as the product with G and in its closed form. -/
def Obligations.EncEncodesMessage : Prop :=
  encode (.enc 0x0B) = 0x0B00000E ∧
  (∀ s, (∃ t, exec (.enc 0x0B) s = .next t ∧ t.res = 0x4B) ∧ (∃ t, exec (.enc 0x00) s = .next t ∧ t.res = 0x00) ∧
    (∃ t, exec (.enc 0x0F) s = .next t ∧ t.res = 0xFF)) ∧
  ∀ (imm : Byte) (s : State),
    InRow (.enc imm) 0x0000000E 0x00FFFFFF ∧
    ∃ (t : State) (v : Byte), exec (.enc imm) s = .next t ∧ WroteRes v s t ∧
      (∀ c < 8, v.getLsbD c =
        decide ((List.range 4).countP (fun k => imm.getLsbD k && genMatrix.cell k c) % 2 = 1)) ∧
      (∀ j < 4, v.getLsbD j = imm.getLsbD j ∧ v.getLsbD (4 + j) =
        ((imm.getLsbD 0 ^^ imm.getLsbD 1 ^^ imm.getLsbD 2 ^^ imm.getLsbD 3) ^^ imm.getLsbD j)) ∧
      (imm.extractLsb' 0 4 ≠ 0 → 4 ≤ (List.range 8).countP v.getLsbD)

/-- R161: the syndrome as the product with Ht and in its closed form, 0 for every codeword, and for a flipped bit p the
row p of Ht. -/
def Obligations.SyndromeClosedForm : Prop :=
  (∀ cw : Byte, ∀ j < 4, (syndrome cw).getLsbD j =
      decide ((List.range 8).countP (fun k => cw.getLsbD k && parMatrix.cell k j) % 2 = 1) ∧
    (syndrome cw).getLsbD j = (cw.getLsbD (4 + j) ^^
      (cw.getLsbD 0 ^^ cw.getLsbD 1 ^^ cw.getLsbD 2 ^^ cw.getLsbD 3) ^^ cw.getLsbD j)) ∧
  (∀ m : Nibble, syndrome (codeword m) = 0) ∧
  (∀ (m : Nibble) (p : BitVec 3), (syndrome (flipBit (codeword m) p)).toNat
    = [14, 13, 11, 7, 1, 2, 4, 8].getD p.toNat 0)

/-- R163: DEC, exit by exit. -/
def Obligations.DecDecodesCodeword : Prop :=
  encode (.dec 0x4A) = 0x4A00000F ∧ syndrome 0x4A = 14 ∧ slut 14 = some 0 ∧
  (∀ s, ∃ t, exec (.dec 0x4A) s = .next t ∧ t.res = 0x0B ∧ t.stat = .corrected) ∧
  ∀ (cw : Byte) (s : State),
    InRow (.dec cw) 0x0000000F 0x00FFFFFF ∧
    (syndrome cw = 0 → ∃ t, exec (.dec cw) s = .next t ∧ Decoded (cw &&& 0x0F) .ok s t) ∧
    (syndrome cw ≠ 0 → slut (syndrome cw) = none →
      ∃ t, exec (.dec cw) s = .next t ∧ Decoded s.res .uncorrectable s t) ∧
    (∀ p : BitVec 3, syndrome cw ≠ 0 → slut (syndrome cw) = some p →
      ∃ t, exec (.dec cw) s = .next t ∧ Decoded ((cw ^^^ BitVec.ofNat 8 (2 ^ p.toNat)) &&& 0x0F) .corrected s t ∧
        (4 ≤ p.toNat → t.res = cw &&& 0x0F))

/-- R165: encode and then decode gives OK and the message. -/
def Obligations.RoundTripWithoutError : Prop :=
  ∀ (m : Byte) (s : State), m.toNat < 16 →
    ∃ t u, exec (.enc m) s = .next t ∧ exec (.dec t.res) t = .next u ∧ u.stat = .ok ∧ u.res = m

/-- R166: any single flipped bit of any codeword is corrected. -/
def Obligations.SingleErrorIsCorrected : Prop :=
  ∀ (m : Byte) (p : Nat) (s s' : State), m.toNat < 16 → p < 8 →
    ∃ t u, exec (.enc m) s = .next t ∧ exec (.dec (t.res ^^^ BitVec.ofNat 8 (2 ^ p))) s' = .next u ∧
      u.stat = .corrected ∧ u.res = m

/-- R167: DEC gives OK exactly when the syndrome is 0. -/
def Obligations.OkIffSyndromeZero : Prop :=
  ∀ (cw : Byte) (s : State), ∃ t, exec (.dec cw) s = .next t ∧ (t.stat = .ok ↔ syndrome cw = 0)

/-- R168: two flipped bits give an ERR syndrome, are UNCORRECTABLE and leave RES alone; three give a syndrome of odd
weight and are CORRECTED to a different message. -/
def Obligations.DoubleAndTripleErrors : Prop :=
  ∀ (m : Byte) (p q : Nat) (s s' : State), m.toNat < 16 → p < q → q < 8 →
    ∃ t, exec (.enc m) s = .next t ∧
      (syndrome (t.res ^^^ BitVec.ofNat 8 (2 ^ p + 2 ^ q))).toNat ∈ [3, 5, 6, 9, 10, 12, 15] ∧
      (∃ u, exec (.dec (t.res ^^^ BitVec.ofNat 8 (2 ^ p + 2 ^ q))) s' = .next u ∧
        u.stat = .uncorrectable ∧ u.res = s'.res) ∧
      ∀ r, q < r → r < 8 →
        (syndrome (t.res ^^^ BitVec.ofNat 8 (2 ^ p + 2 ^ q + 2 ^ r))).toNat ∈ [1, 2, 4, 7, 8, 11, 13, 14] ∧
        ∃ u, exec (.dec (t.res ^^^ BitVec.ofNat 8 (2 ^ p + 2 ^ q + 2 ^ r))) s' = .next u ∧ u.stat = .corrected ∧ u.res ≠ m

/-- L1-4, P1 and P2 of 95_test_vectors: ENC and the syndrome of DEC equal the course of FROMBYTE, MUL with the constant
register and TOBYTE, through any two general registers. -/
def Obligations.CodecEqualsMatrixCourse : Prop :=
  ∀ (a b : RegNo) (x : Byte) (s : State), General a → General b →
    (∃ t₁ t₂ t₃ u, exec (.frombyte a x 4) s = .next t₁ ∧ exec (.mul b a 6) t₁ = .next t₂ ∧
      exec (.tobyte b) t₂ = .next t₃ ∧ exec (.enc x) s = .next u ∧ t₃.res = u.res) ∧
    (∃ t₁ t₂ t₃ u, exec (.frombyte a x 8) s = .next t₁ ∧ exec (.mul b a 7) t₁ = .next t₂ ∧
      exec (.tobyte b) t₂ = .next t₃ ∧ exec (.dec x) s = .next u ∧
      t₃.res = (syndrome x).setWidth 8 ∧ (t₃.res = 0 ↔ u.stat = .ok) ∧
      (∀ p : BitVec 3, slut (t₃.res.setWidth 4) = some p →
        u.stat = .corrected ∧ u.res = (x ^^^ BitVec.ofNat 8 (2 ^ p.toNat)) &&& 0x0F) ∧
      (t₃.res ≠ 0 → slut (t₃.res.setWidth 4) = none → u.stat = .uncorrectable ∧ u.res = s.res))

/-! ## The host's stream (60_exceptions R207, R208) -/

/-- MODEL'S CHOICE (log entry 12): a codeword stream of odd length is rejected whole, and no other is. R208 says only that
the host rejects such an input as malformed and emits no byte for the unpaired codeword. -/
def Obligations.OddStreamIsRejected : Prop :=
  ∀ cs : List Byte, decodeStreamCommands cs = none ↔ cs.length % 2 = 1

/-- R207, with R165 and R166: a byte stream encoded by commands from any state, of whose codewords each may lose one
bit, and decoded by commands from any state, is the byte stream. -/
def Obligations.StreamSurvivesSingleErrors : Prop :=
  ∀ (xs : List Byte) (s : State), s.hostEvents = (encodeStreamCommands xs).map .command →
    ∃ (t : State) (rs : List Word), Sys2Proof.core.run (encodeStreamCommands xs).length s = .next t ∧
      t.responses = s.responses ++ rs ∧ (encodedBytes rs).length = 2 * xs.length ∧
      ∀ received : List Byte,
        OneBitApart (encodedBytes rs) received →
        ∃ ws, decodeStreamCommands received = some ws ∧
          ∀ s' : State, s'.hostEvents = ws.map .command →
            ∃ (t' : State) (rs' : List Word), Sys2Proof.core.run ws.length s' = .next t' ∧
              t'.responses = s'.responses ++ rs' ∧ decodedBytes rs' = xs
end

