-- ==== Sys2Proof/Laws/State.lean ====
section
/-! SUPPORT. The small lemmas of State: each field after each update, and reading a matrix register after each update. -/

namespace Sys2Proof.Machine

/-! ## Reading a matrix register depends on the register file alone -/

theorem State.readMR_congr {s t : State} (h : t.mr = s.mr) (i : RegNo) : t.readMR i = s.readMR i := by
  simp only [State.readMR, h]

@[simp] theorem State.readMR_with_res (s : State) (v : Byte) (i : RegNo) :
    State.readMR { s with res := v } i = s.readMR i := rfl

@[simp] theorem State.readMR_with_stat (s : State) (v : Stat) (i : RegNo) :
    State.readMR { s with stat := v } i = s.readMR i := rfl

@[simp] theorem State.readMR_with_res_stat (s : State) (v : Byte) (x : Stat) (i : RegNo) :
    State.readMR { s with res := v, stat := x } i = s.readMR i := rfl

@[simp] theorem State.readMR_with_hostEvents (s : State) (v : List HostEvent) (i : RegNo) :
    State.readMR { s with hostEvents := v } i = s.readMR i := rfl

@[simp] theorem State.readMR_respond (s : State) (f : FaultCode) (i : RegNo) :
    (s.respond f).readMR i = s.readMR i := rfl

@[simp] theorem State.readMR_recordFault (s : State) (f : FaultCode) (i : RegNo) :
    (s.recordFault f).readMR i = s.readMR i := rfl

@[simp] theorem State.readMR_placeCommand (s : State) (w : Word) (i : RegNo) :
    (s.placeCommand w).readMR i = s.readMR i := rfl

/-- MR6 reads G in every state (10_state R26). -/
@[simp] theorem State.readMR_six (s : State) : s.readMR 6#3 = genMatrix := rfl

/-- MR7 reads Ht in every state (10_state R27). -/
@[simp] theorem State.readMR_seven (s : State) : s.readMR 7#3 = parMatrix := rfl

theorem general_iff_lt (i : RegNo) : General i ↔ i.toNat < 6 := by
  unfold General; revert i; decide

theorem isConst_eq_true_iff (i : RegNo) : isConst i = true ↔ i = 6 ∨ i = 7 := by
  simp [isConst]

theorem isConst_eq_false_iff (i : RegNo) : isConst i = false ↔ General i := by
  simp [isConst, General]

theorem General.isConst_eq {i : RegNo} (h : General i) : isConst i = false := (isConst_eq_false_iff i).2 h

/-! ## Writing a matrix register -/

/-- Reading back a general register after writing it. -/
theorem State.readMR_writeMR_same (s : State) {i : RegNo} (M : MatrixReg) (h : General i) :
    (s.writeMR i M).readMR i = M := by
  have hi := (general_iff_lt i).1 h
  simp [State.readMR, State.writeMR, hi]

/-- A write leaves every other register as it was. -/
theorem State.readMR_writeMR_ne (s : State) {i j : RegNo} (M : MatrixReg) (h : j ≠ i) :
    (s.writeMR i M).readMR j = s.readMR j := by
  have hn : i.toNat ≠ j.toNat := fun e => h (BitVec.eq_of_toNat_eq e).symm
  unfold State.writeMR
  split
  · unfold State.readMR
    split
    · simp [hn]
    · rfl
  · rfl

@[simp] theorem State.writeMR_res (s : State) (i : RegNo) (M : MatrixReg) : (s.writeMR i M).res = s.res := by
  unfold State.writeMR; split <;> rfl

@[simp] theorem State.writeMR_stat (s : State) (i : RegNo) (M : MatrixReg) : (s.writeMR i M).stat = s.stat := by
  unfold State.writeMR; split <;> rfl

@[simp] theorem State.writeMR_fsticky (s : State) (i : RegNo) (M : MatrixReg) :
    (s.writeMR i M).fsticky = s.fsticky := by
  unfold State.writeMR; split <;> rfl

@[simp] theorem State.writeMR_fcause (s : State) (i : RegNo) (M : MatrixReg) : (s.writeMR i M).fcause = s.fcause := by
  unfold State.writeMR; split <;> rfl

@[simp] theorem State.writeMR_hostEvents (s : State) (i : RegNo) (M : MatrixReg) :
    (s.writeMR i M).hostEvents = s.hostEvents := by
  unfold State.writeMR; split <;> rfl

@[simp] theorem State.writeMR_responses (s : State) (i : RegNo) (M : MatrixReg) :
    (s.writeMR i M).responses = s.responses := by
  unfold State.writeMR; split <;> rfl

/-! ## The other updates, field by field -/

@[simp] theorem State.respond_mr (s : State) (f : FaultCode) : (s.respond f).mr = s.mr := rfl
@[simp] theorem State.respond_res (s : State) (f : FaultCode) : (s.respond f).res = s.res := rfl
@[simp] theorem State.respond_stat (s : State) (f : FaultCode) : (s.respond f).stat = s.stat := rfl
@[simp] theorem State.respond_fsticky (s : State) (f : FaultCode) : (s.respond f).fsticky = s.fsticky := rfl
@[simp] theorem State.respond_fcause (s : State) (f : FaultCode) : (s.respond f).fcause = s.fcause := rfl
@[simp] theorem State.respond_hostEvents (s : State) (f : FaultCode) : (s.respond f).hostEvents = s.hostEvents := rfl
@[simp] theorem State.respond_responses (s : State) (f : FaultCode) :
    (s.respond f).responses = s.responses ++ [s.responseWord f] := rfl

@[simp] theorem State.recordFault_mr (s : State) (f : FaultCode) : (s.recordFault f).mr = s.mr := rfl
@[simp] theorem State.recordFault_res (s : State) (f : FaultCode) : (s.recordFault f).res = s.res := rfl
@[simp] theorem State.recordFault_stat (s : State) (f : FaultCode) : (s.recordFault f).stat = s.stat := rfl
@[simp] theorem State.recordFault_fsticky (s : State) (f : FaultCode) : (s.recordFault f).fsticky = true := rfl
@[simp] theorem State.recordFault_fcause (s : State) (f : FaultCode) :
    (s.recordFault f).fcause = if s.fsticky then s.fcause else f := rfl
@[simp] theorem State.recordFault_hostEvents (s : State) (f : FaultCode) :
    (s.recordFault f).hostEvents = s.hostEvents := rfl
@[simp] theorem State.recordFault_responses (s : State) (f : FaultCode) :
    (s.recordFault f).responses = s.responses := rfl

@[simp] theorem State.assertReset_mr (s : State) : s.assertReset.mr = State.reset.mr := rfl
@[simp] theorem State.assertReset_res (s : State) : s.assertReset.res = 0 := rfl
@[simp] theorem State.assertReset_stat (s : State) : s.assertReset.stat = .none := rfl
@[simp] theorem State.assertReset_fsticky (s : State) : s.assertReset.fsticky = false := rfl
@[simp] theorem State.assertReset_fcause (s : State) : s.assertReset.fcause = .none := rfl
@[simp] theorem State.assertReset_hostEvents (s : State) : s.assertReset.hostEvents = s.hostEvents := rfl
@[simp] theorem State.assertReset_responses (s : State) : s.assertReset.responses = s.responses := rfl

@[simp] theorem State.placeCommand_mr (s : State) (w : Word) : (s.placeCommand w).mr = s.mr := rfl
@[simp] theorem State.placeCommand_res (s : State) (w : Word) : (s.placeCommand w).res = s.res := rfl
@[simp] theorem State.placeCommand_stat (s : State) (w : Word) : (s.placeCommand w).stat = s.stat := rfl
@[simp] theorem State.placeCommand_fsticky (s : State) (w : Word) : (s.placeCommand w).fsticky = s.fsticky := rfl
@[simp] theorem State.placeCommand_fcause (s : State) (w : Word) : (s.placeCommand w).fcause = s.fcause := rfl
@[simp] theorem State.placeCommand_hostEvents (s : State) (w : Word) :
    (s.placeCommand w).hostEvents = .command w :: s.hostEvents := rfl
@[simp] theorem State.placeCommand_responses (s : State) (w : Word) :
    (s.placeCommand w).responses = s.responses := rfl

end Sys2Proof.Machine
end

