-- ==== Sys2Proof/Laws/Ops.lean ====
section
/-! SUPPORT. One lemma for each shared operation: everything it can do. Statements cite these instead of unfolding. -/

namespace Sys2Proof.Machine

/-! ## The response word (30_encoding R78) -/

/-- Reading each field of a response word gives what was put there. -/
theorem responseWord_responseOf (s : State) (f : FaultCode) : ResponseOf s f (s.responseWord f) := by
  unfold ResponseOf rspRes rspStat rspFault rspSticky rspCause rspZero State.responseWord
  generalize s.fcause.code = a, BitVec.ofBool s.fsticky = b, f.code = c, s.stat.code = d, s.res = e
  refine ⟨?_, ?_, ?_, ?_, ?_, ?_⟩ <;>
    (apply BitVec.eq_of_getLsbD_eq
     intro i hi
     interval_cases i <;> simp only [BitVec.getLsbD_extractLsb', BitVec.getLsbD_append] <;> simp)

/-- `respond` returns one response word and nothing else. -/
theorem answered_respond {s t : State} (f : FaultCode) (he : t.hostEvents = s.hostEvents)
    (hr : t.responses = s.responses) : Answered s (t.respond f) f :=
  ⟨he, t.responseWord f, by simp [hr], responseWord_responseOf t f⟩

/-! ## How a command ends -/

/-- `complete` answers one next state. -/
theorem complete_eq_next_iff (s t : State) : complete s = .next t ↔ t = s.respond .none := by
  unfold complete; constructor
  · intro h; cases h; rfl
  · rintro rfl; rfl

/-- `raise` answers one next state. -/
theorem raise_eq_next_iff (f : FaultCode) (s t : State) :
    raise f s = .next t ↔ t = (s.recordFault f).respond f := by
  unfold raise; constructor
  · intro h; cases h; rfl
  · rintro rfl; rfl

/-- Taking a fault changes the fault record and returns a response, and does nothing else (60_exceptions R193, R194). -/
theorem raise_faulted (f : FaultCode) (s : State) : ∃ t, raise f s = .next t ∧ Faulted f s t :=
  ⟨_, rfl, fun _ => rfl, rfl, rfl, rfl, rfl, answered_respond f rfl rfl⟩

/-- Completing with nothing written. -/
theorem complete_unchanged (s : State) : ∃ t, complete s = .next t ∧ Unchanged s t :=
  ⟨_, rfl, ⟨fun _ => rfl, rfl, rfl, rfl, rfl⟩, answered_respond .none rfl rfl⟩

/-- Completing with RES written. -/
theorem complete_wroteRes (s : State) (v : Byte) :
    ∃ t, complete { s with res := v } = .next t ∧ WroteRes v s t :=
  ⟨_, rfl, rfl, fun _ => rfl, rfl, ⟨rfl, rfl⟩, answered_respond .none rfl rfl⟩

/-- Completing with a general matrix register written. -/
theorem complete_wroteMatrix (s : State) {md : RegNo} (M : MatrixReg) (h : General md) :
    ∃ t, complete (s.writeMR md M) = .next t ∧ WroteMatrix md M s t :=
  ⟨_, rfl, by simpa using State.readMR_writeMR_same s M h, fun j hj => by simpa using State.readMR_writeMR_ne s M hj,
    by simp, by simp, ⟨by simp, by simp⟩, answered_respond .none (by simp) (by simp)⟩

/-! ## Cells -/

/-- The cell check succeeds exactly inside the matrix, and gives `r*cols + c` (41_bit_access R120). -/
theorem cellIndex_eq_some_iff (M : MatrixReg) (r c : Shape) (i : Nat) :
    cellIndex M r c = some i ↔ CellIn M r c ∧ i = r.toNat * M.cols.toNat + c.toNat := by
  unfold cellIndex CellIn
  split <;> rename_i h <;> simp only [BitVec.le_def] at h
  · simp only [reduceCtorEq, false_iff]; omega
  · simp only [Option.some.injEq]; constructor
    · rintro rfl; exact ⟨by omega, rfl⟩
    · rintro ⟨_, rfl⟩; rfl

/-- The cell check fails exactly outside the matrix. -/
theorem cellIndex_eq_none_iff (M : MatrixReg) (r c : Shape) : cellIndex M r c = none ↔ ¬ CellIn M r c := by
  unfold cellIndex CellIn
  split <;> rename_i h <;> simp only [BitVec.le_def] at h
  · simp only [true_iff]; omega
  · simp only [reduceCtorEq, false_iff]; omega

/-- A bit after a bit was written. -/
theorem getLsbD_withBit (M : MatrixReg) (i j : Nat) (b : Bool) (hi : i < 64) :
    (M.withBit i b).bits.getLsbD j = if j = i then b else M.bits.getLsbD j := by
  unfold MatrixReg.withBit
  cases b <;> by_cases hj : j < 64 <;> by_cases e : j = i <;>
    simp_all <;> omega

@[simp] theorem withBit_present (M : MatrixReg) (i : Nat) (b : Bool) : (M.withBit i b).present = M.present := rfl
@[simp] theorem withBit_rows (M : MatrixReg) (i : Nat) (b : Bool) : (M.withBit i b).rows = M.rows := rfl
@[simp] theorem withBit_cols (M : MatrixReg) (i : Nat) (b : Bool) : (M.withBit i b).cols = M.cols := rfl
@[simp] theorem withBit_area (M : MatrixReg) (i : Nat) (b : Bool) : (M.withBit i b).area = M.area := rfl

/-- Everything the shared cell operation can do (41_bit_access R120, R122 to R125). -/
theorem updateCell_cases (f : Bool → Bool) (md : RegNo) (r c : Shape) (s : State) :
    ((md = 6 ∨ md = 7) ∧ updateCell f md r c s = raise .constantWrite s) ∨
    (General md ∧ (s.readMR md).present = false ∧ updateCell f md r c s = complete s) ∨
    (General md ∧ (s.readMR md).present = true ∧ ¬ CellIn (s.readMR md) r c ∧
      updateCell f md r c s = raise .indexOutOfRange s) ∨
    (General md ∧ (s.readMR md).present = true ∧ CellIn (s.readMR md) r c ∧
      updateCell f md r c s = complete (s.writeMR md ((s.readMR md).withBit (r.toNat * (s.readMR md).cols.toNat + c.toNat)
        (f ((s.readMR md).cell r.toNat c.toNat))))) := by
  unfold updateCell
  by_cases hc : isConst md = true
  · exact .inl ⟨(isConst_eq_true_iff md).1 hc, by simp [hc]⟩
  · have hg : General md := (isConst_eq_false_iff md).1 (by simpa using hc)
    by_cases hp : (s.readMR md).present = false
    · exact .inr (.inl ⟨hg, hp, by simp [hc, hp]⟩)
    · have hp' : (s.readMR md).present = true := by simpa using hp
      rcases h : cellIndex (s.readMR md) r c with _ | i
      · exact .inr (.inr (.inl ⟨hg, hp', (cellIndex_eq_none_iff _ _ _).1 h, by simp [hc, hp']⟩))
      · obtain ⟨hin, rfl⟩ := (cellIndex_eq_some_iff _ _ _ _).1 h
        exact .inr (.inr (.inr ⟨hg, hp', hin, by simp [hc, hp', MatrixReg.cell]⟩))

/-! ## Packing and multiplication -/

theorem packBits_succ (w : Nat) (f : Nat → Bool) (n : Nat) :
    packBits w f (n + 1) = if f n = true then packBits w f n ||| (1#w <<< n) else packBits w f n := rfl

/-- Bit `i` of a packed word. -/
theorem getLsbD_packBits (w : Nat) (f : Nat → Bool) (n i : Nat) :
    (packBits w f n).getLsbD i = (decide (i < w) && decide (i < n) && f i) := by
  induction n with
  | zero => simp [packBits]
  | succ n ih =>
    have step : (packBits w f (n + 1)).getLsbD i
        = ((packBits w f n).getLsbD i || (f n && decide (i < w) && decide (i = n))) := by
      rw [packBits_succ]
      cases hf : f n
      · simp
      · have hs : (1#w <<< n).getLsbD i = (decide (i < w) && decide (i = n)) := by
          rw [BitVec.getLsbD_shiftLeft, BitVec.getLsbD_one]
          by_cases hi : i < w <;> by_cases e : i = n <;> simp_all <;> omega
        simp only [if_true, BitVec.getLsbD_or, hs, Bool.true_and]
    rw [step, ih]
    by_cases hi : i < w <;> by_cases e : i = n
    · subst e; simp [hi]
    · have h1 : (i < n + 1) ↔ i < n := by omega
      simp [hi, e, h1]
    · simp [hi]
    · simp [hi]

/-- Cell (i, j) of a product, for operands within the shape limits (42_convert_multiply R142). -/
theorem cell_multiply (A B : MatrixReg) (i j : Nat) (hA : A.rows.toNat ≤ 8) (hB : B.cols.toNat ≤ 8)
    (hi : i < A.rows.toNat) (hj : j < B.cols.toNat) : (multiply A B).cell i j = mulCell A B i j := by
  have hlt : i * B.cols.toNat + j < A.rows.toNat * B.cols.toNat := by
    calc i * B.cols.toNat + j < i * B.cols.toNat + B.cols.toNat := by omega
      _ = (i + 1) * B.cols.toNat := by ring
      _ ≤ A.rows.toNat * B.cols.toNat := Nat.mul_le_mul_right _ hi
  have h64 : A.rows.toNat * B.cols.toNat ≤ 64 := (Nat.mul_le_mul hA hB).trans (by norm_num)
  have hd : (i * B.cols.toNat + j) / B.cols.toNat = i := by
    rw [mul_comm, Nat.mul_add_div (by omega), Nat.div_eq_of_lt hj, add_zero]
  have hm : (i * B.cols.toNat + j) % B.cols.toNat = j := by
    rw [mul_comm, Nat.mul_add_mod, Nat.mod_eq_of_lt hj]
  simp only [MatrixReg.cell, multiply, getLsbD_packBits, hd, hm]
  simp [hlt, show i * B.cols.toNat + j < 64 by omega]

end Sys2Proof.Machine
end

