-- ==== Sys2Proof/Laws/Invariant.lean ====
section
/-! SUPPORT. Every value a command can write to a matrix register keeps the storage invariant (spec 10_state R23, R24). -/

namespace Sys2Proof.Machine

theorem absent_wf : MatrixReg.absent.Wf := by decide

theorem genMatrix_wf : genMatrix.Wf := by decide

theorem parMatrix_wf : parMatrix.Wf := by decide

/-- CREATE's zero matrix. -/
theorem zeroMatrix_wf (r c : Shape) (hr : r.toNat ≤ 8) (hc : c.toNat ≤ 8) :
    MatrixReg.Wf { present := true, rows := r, cols := c, bits := 0 } :=
  ⟨hr, hc, by simp, by simp⟩

/-- FROMBYTE's row holds the low n bits of the byte. -/
theorem getLsbD_rowOfByte (b : Byte) (n : Shape) (hn : n.toNat ≤ 8) (k : Nat) :
    (rowOfByte b n).bits.getLsbD k = (decide (k < n.toNat) && b.getLsbD k) := by
  have mask : ∀ m : Nat, m ≤ 8 → ∀ k : Nat, k < 8 → ((1#8 <<< m) - 1#8).getLsbD k = decide (k < m) := by decide
  simp only [rowOfByte, BitVec.getLsbD_setWidth, BitVec.getLsbD_and]
  by_cases hk : k < 8
  · rw [mask _ hn k hk]; simp [show k < 64 by omega, Bool.and_comm]
  · simp [BitVec.getLsbD_of_ge b k (by omega)]

theorem rowOfByte_wf (b : Byte) (n : Shape) (hn : n.toNat ≤ 8) : (rowOfByte b n).Wf := by
  refine ⟨by simp [rowOfByte], hn, by simp [rowOfByte], fun i _ ha => ?_⟩
  rw [getLsbD_rowOfByte b n hn]
  have : n.toNat ≤ i := by simpa [MatrixReg.area, rowOfByte] using ha
  simp [show ¬ i < n.toNat by omega]

theorem multiply_wf (A B : MatrixReg) (hA : A.Wf) (hB : B.Wf) : (multiply A B).Wf := by
  refine ⟨hA.1, hB.2.1, by simp [multiply], fun i _ ha => ?_⟩
  have : ¬ i < A.rows.toNat * B.cols.toNat := by simpa [MatrixReg.area, multiply] using ha
  simp [multiply, getLsbD_packBits, this]

/-- The index of a cell inside a matrix within the shape limits. -/
theorem CellIn.index_lt {M : MatrixReg} {r c : Shape} (h : CellIn M r c) :
    r.toNat * M.cols.toNat + c.toNat < M.area := by
  obtain ⟨hr, hc⟩ := h
  calc r.toNat * M.cols.toNat + c.toNat < r.toNat * M.cols.toNat + M.cols.toNat := by omega
    _ = (r.toNat + 1) * M.cols.toNat := by ring
    _ ≤ M.area := Nat.mul_le_mul_right _ hr

theorem MatrixReg.Wf.area_le {M : MatrixReg} (h : M.Wf) : M.area ≤ 64 :=
  (Nat.mul_le_mul h.1 h.2.1).trans (by norm_num)

/-- Writing a cell inside the matrix. -/
theorem withBit_wf (M : MatrixReg) (r c : Shape) (b : Bool) (h : M.Wf) (hp : M.present = true) (hin : CellIn M r c) :
    (M.withBit (r.toNat * M.cols.toNat + c.toNat) b).Wf := by
  have hlt := hin.index_lt
  have h64 := h.area_le
  refine ⟨h.1, h.2.1, by simp [hp], fun i hi ha => ?_⟩
  rw [getLsbD_withBit _ _ _ _ (by omega), if_neg (by rw [withBit_area] at ha; omega)]
  exact h.2.2.2 i hi ha

/-- Every register of a state with the storage invariant keeps it when one register is written with a record that has
it. -/
theorem State.StorageInv.writeMR {s : State} (h : s.StorageInv) (i : RegNo) {M : MatrixReg} (hM : M.Wf) :
    (s.writeMR i M).StorageInv := by
  intro j
  by_cases hj : j = i
  · subst hj
    by_cases hg : General j
    · rw [State.readMR_writeMR_same s M hg]; exact hM
    · have : s.writeMR j M = s := by
        unfold State.writeMR; rw [dif_neg (mt (general_iff_lt j).2 hg)]
      rw [this]; exact h j
  · rw [State.readMR_writeMR_ne s M hj]; exact h j

/-- The invariant on the block's registers right after reset. -/
theorem reset_storageInv : State.reset.StorageInv := by decide

end Sys2Proof.Machine
end

