-- ==== Sys2Proof/Laws/PerInstr.lean ====
section
/-! SUPPORT. The family EncodesInRow: the word of every command lies in the row that 30_encoding R76 gives its mnemonic. -/

namespace Sys2Proof.Laws

/-- The row (match, mask) of 30_encoding R76 for a command. -/
def EncodesInRow.row : Instr → Word × Word
  | .nop => (0x00000000, 0xFFFFFFFF)
  | .create _ _ _ => (0x00000001, 0xFF00FF1F)
  | .free _ => (0x00000002, 0xFFFFFF1F)
  | .rows _ => (0x00000003, 0xFFFFF8FF)
  | .cols _ => (0x00000004, 0xFFFFF8FF)
  | .len _ => (0x00000005, 0xFFFFF8FF)
  | .getbit _ _ _ => (0x00000006, 0xFF00F8FF)
  | .setbit _ _ _ => (0x00000007, 0xFF00FF1F)
  | .clrbit _ _ _ => (0x00000008, 0xFF00FF1F)
  | .tglbit _ _ _ => (0x00000009, 0xFF00FF1F)
  | .xorbit _ _ _ _ => (0x0000000A, 0xFE00FF1F)
  | .frombyte _ _ _ => (0x0000000B, 0x00F0FF1F)
  | .tobyte _ => (0x0000000C, 0xFFFFF8FF)
  | .mul _ _ _ => (0x0000000D, 0xFFFFC01F)
  | .enc _ => (0x0000000E, 0x00FFFFFF)
  | .dec _ => (0x0000000F, 0x00FFFFFF)

/-- The command's word is in its row. -/
def EncodesInRow.Statement (i : Instr) : Prop := encode i &&& (EncodesInRow.row i).2 = (EncodesInRow.row i).1

/-- A packed word under a mask, bit by bit, below bit 32: the shape of every proof below. -/
theorem getLsbD_packCommand (op : BitVec 5) (md ma mb : RegNo) (fi fj : Shape) (imm8 : Byte) (i : Nat) (hi : i < 32) :
    (packCommand op md ma mb fi fj imm8).getLsbD i =
      if i < 5 then op.getLsbD i else if i < 8 then md.getLsbD (i - 5) else if i < 11 then ma.getLsbD (i - 8)
      else if i < 14 then mb.getLsbD (i - 11) else if i < 16 then false else if i < 20 then fi.getLsbD (i - 16)
      else if i < 24 then fj.getLsbD (i - 20) else imm8.getLsbD (i - 24) := by
  unfold packCommand
  interval_cases i <;>
    simp only [BitVec.getLsbD_or, BitVec.getLsbD_shiftLeft, BitVec.getLsbD_setWidth] <;> simp

theorem EncodesInRow.nop : EncodesInRow.Statement (.nop) := by
  apply BitVec.eq_of_getLsbD_eq
  intro i hi
  simp only [EncodesInRow.row, encode, BitVec.getLsbD_and, getLsbD_packCommand _ _ _ _ _ _ _ i hi]
  interval_cases i <;> simp

theorem EncodesInRow.create (md : RegNo) (r : Shape) (c : Shape) : EncodesInRow.Statement (.create md r c) := by
  apply BitVec.eq_of_getLsbD_eq
  intro i hi
  simp only [EncodesInRow.row, encode, BitVec.getLsbD_and, getLsbD_packCommand _ _ _ _ _ _ _ i hi]
  interval_cases i <;> simp

theorem EncodesInRow.free (md : RegNo) : EncodesInRow.Statement (.free md) := by
  apply BitVec.eq_of_getLsbD_eq
  intro i hi
  simp only [EncodesInRow.row, encode, BitVec.getLsbD_and, getLsbD_packCommand _ _ _ _ _ _ _ i hi]
  interval_cases i <;> simp

theorem EncodesInRow.rows (ma : RegNo) : EncodesInRow.Statement (.rows ma) := by
  apply BitVec.eq_of_getLsbD_eq
  intro i hi
  simp only [EncodesInRow.row, encode, BitVec.getLsbD_and, getLsbD_packCommand _ _ _ _ _ _ _ i hi]
  interval_cases i <;> simp

theorem EncodesInRow.cols (ma : RegNo) : EncodesInRow.Statement (.cols ma) := by
  apply BitVec.eq_of_getLsbD_eq
  intro i hi
  simp only [EncodesInRow.row, encode, BitVec.getLsbD_and, getLsbD_packCommand _ _ _ _ _ _ _ i hi]
  interval_cases i <;> simp

theorem EncodesInRow.len (ma : RegNo) : EncodesInRow.Statement (.len ma) := by
  apply BitVec.eq_of_getLsbD_eq
  intro i hi
  simp only [EncodesInRow.row, encode, BitVec.getLsbD_and, getLsbD_packCommand _ _ _ _ _ _ _ i hi]
  interval_cases i <;> simp

theorem EncodesInRow.getbit (ma : RegNo) (r : Shape) (c : Shape) : EncodesInRow.Statement (.getbit ma r c) := by
  apply BitVec.eq_of_getLsbD_eq
  intro i hi
  simp only [EncodesInRow.row, encode, BitVec.getLsbD_and, getLsbD_packCommand _ _ _ _ _ _ _ i hi]
  interval_cases i <;> simp

theorem EncodesInRow.setbit (md : RegNo) (r : Shape) (c : Shape) : EncodesInRow.Statement (.setbit md r c) := by
  apply BitVec.eq_of_getLsbD_eq
  intro i hi
  simp only [EncodesInRow.row, encode, BitVec.getLsbD_and, getLsbD_packCommand _ _ _ _ _ _ _ i hi]
  interval_cases i <;> simp

theorem EncodesInRow.clrbit (md : RegNo) (r : Shape) (c : Shape) : EncodesInRow.Statement (.clrbit md r c) := by
  apply BitVec.eq_of_getLsbD_eq
  intro i hi
  simp only [EncodesInRow.row, encode, BitVec.getLsbD_and, getLsbD_packCommand _ _ _ _ _ _ _ i hi]
  interval_cases i <;> simp

theorem EncodesInRow.tglbit (md : RegNo) (r : Shape) (c : Shape) : EncodesInRow.Statement (.tglbit md r c) := by
  apply BitVec.eq_of_getLsbD_eq
  intro i hi
  simp only [EncodesInRow.row, encode, BitVec.getLsbD_and, getLsbD_packCommand _ _ _ _ _ _ _ i hi]
  interval_cases i <;> simp

theorem EncodesInRow.xorbit (md : RegNo) (r : Shape) (c : Shape) (b : BitVec 1) : EncodesInRow.Statement (.xorbit md r c b) := by
  apply BitVec.eq_of_getLsbD_eq
  intro i hi
  simp only [EncodesInRow.row, encode, BitVec.getLsbD_and, getLsbD_packCommand _ _ _ _ _ _ _ i hi]
  interval_cases i <;> simp

theorem EncodesInRow.frombyte (md : RegNo) (b : Byte) (n : Shape) : EncodesInRow.Statement (.frombyte md b n) := by
  apply BitVec.eq_of_getLsbD_eq
  intro i hi
  simp only [EncodesInRow.row, encode, BitVec.getLsbD_and, getLsbD_packCommand _ _ _ _ _ _ _ i hi]
  interval_cases i <;> simp

theorem EncodesInRow.tobyte (ma : RegNo) : EncodesInRow.Statement (.tobyte ma) := by
  apply BitVec.eq_of_getLsbD_eq
  intro i hi
  simp only [EncodesInRow.row, encode, BitVec.getLsbD_and, getLsbD_packCommand _ _ _ _ _ _ _ i hi]
  interval_cases i <;> simp

theorem EncodesInRow.mul (md : RegNo) (ma : RegNo) (mb : RegNo) : EncodesInRow.Statement (.mul md ma mb) := by
  apply BitVec.eq_of_getLsbD_eq
  intro i hi
  simp only [EncodesInRow.row, encode, BitVec.getLsbD_and, getLsbD_packCommand _ _ _ _ _ _ _ i hi]
  interval_cases i <;> simp

theorem EncodesInRow.enc (imm : Byte) : EncodesInRow.Statement (.enc imm) := by
  apply BitVec.eq_of_getLsbD_eq
  intro i hi
  simp only [EncodesInRow.row, encode, BitVec.getLsbD_and, getLsbD_packCommand _ _ _ _ _ _ _ i hi]
  interval_cases i <;> simp

theorem EncodesInRow.dec (imm : Byte) : EncodesInRow.Statement (.dec imm) := by
  apply BitVec.eq_of_getLsbD_eq
  intro i hi
  simp only [EncodesInRow.row, encode, BitVec.getLsbD_and, getLsbD_packCommand _ _ _ _ _ _ _ i hi]
  interval_cases i <;> simp

end Sys2Proof.Laws
end

