-- ==== Sys2Proof/Machine/Platform.lean ====
section
/-! DEFINITION. What a platform puts around the block, in terms of its three open parameters: the cycles a command takes,
the signals of the port, and the bytes of a word on a narrower transport (spec 00_scope R7; 20_memory R55;
70_reset_and_hazards R223, R226). The block's own step depends on none of them. -/

namespace Sys2Proof.Machine

/-! ## CMD_LATENCY (70_reset_and_hazards R226) -/

/-- The matrix registers a command reads by number (10_state R35). ENC and DEC read only constants and their word. -/
def sources : Instr → List RegNo
  | .rows ma | .cols ma | .len ma | .getbit ma _ _ | .tobyte ma => [ma]
  | .setbit md _ _ | .clrbit md _ _ | .tglbit md _ _ | .xorbit md _ _ _ => [md]
  | .mul _ ma mb => [ma, mb]
  | .nop | .create _ _ _ | .free _ | .frombyte _ _ _ | .enc _ | .dec _ => []

/-- A matrix register as an operand of CMD_LATENCY. -/
def MatrixReg.asOperand (M : MatrixReg) : Config.OperandRecord := (M.present, M.rows, M.cols, M.bits)

/-- The records a command word reads; none for a word that is no command. -/
def operandRecords (w : Word) (s : State) : List Config.OperandRecord :=
  match decode w with
  | .ok i => (sources i).map (fun r => (s.readMR r).asOperand)
  | .error _ => []

/-- The clock cycles from the acceptance of `w` in state `s` to its response. No rule depends on it, and State holds no
time: the model orders commands and responses and says nothing else of when they happen. -/
def commandLatency (w : Word) (s : State) : PNat := Config.cmdLatency w (operandRecords w s)

/-! ## PORT_PROTOCOL (00_scope R7) -/

/-- The machine whose host drives the port with these signals, cycle by cycle: the transactions they make are the ones
still to come. -/
def State.withSignals (s : State) (trace : List Config.PortSignals) : State :=
  { s with hostEvents := Config.portProtocol trace }

/-! ## TRANSPORT_BYTE_ORDER (20_memory R55) -/

/-- Byte `k` of a word, byte 0 the least significant. -/
def byteOf (w : Word) (k : Fin 4) : Byte := w.extractLsb' (8 * k.val) 8

/-- A command word or a response word as the bytes of a narrower transport, the first carried first. -/
def toTransport (w : Word) : List Byte := List.ofFn (fun k => byteOf w (Config.transportByteOrder k))

/-- The word that four bytes of the transport carry; fewer or more carry none. -/
def ofTransport (bytes : List Byte) : Option Word :=
  if h : bytes.length = 4 then
    let b : Fin 4 → Byte := fun k => bytes.get (Fin.cast h.symm (Config.transportByteOrder.symm k))
    some (b 3 ++ b 2 ++ b 1 ++ b 0)
  else none

end Sys2Proof.Machine
end

