-- ==== Sys2Proof/Laws/Platform.lean ====
section
/-! SUPPORT. The open parameters of the platform: what holds of them whatever they are (spec 00_scope R7; 20_memory R55;
70_reset_and_hazards R226). -/

namespace Sys2Proof.Machine

/-- CMD_LATENCY is a positive number of cycles (70_reset_and_hazards R226). -/
theorem commandLatency_pos (w : Word) (s : State) : 0 < (commandLatency w s : Nat) := PNat.pos _

@[simp] theorem State.withSignals_hostEvents (s : State) (trace : List Config.PortSignals) :
    (s.withSignals trace).hostEvents = Config.portProtocol trace := rfl

@[simp] theorem State.withSignals_readMR (s : State) (trace : List Config.PortSignals) (i : RegNo) :
    (s.withSignals trace).readMR i = s.readMR i := rfl

@[simp] theorem State.withSignals_res (s : State) (trace : List Config.PortSignals) :
    (s.withSignals trace).res = s.res := rfl

@[simp] theorem State.withSignals_stat (s : State) (trace : List Config.PortSignals) :
    (s.withSignals trace).stat = s.stat := rfl

@[simp] theorem State.withSignals_fsticky (s : State) (trace : List Config.PortSignals) :
    (s.withSignals trace).fsticky = s.fsticky := rfl

@[simp] theorem State.withSignals_fcause (s : State) (trace : List Config.PortSignals) :
    (s.withSignals trace).fcause = s.fcause := rfl

@[simp] theorem State.withSignals_responses (s : State) (trace : List Config.PortSignals) :
    (s.withSignals trace).responses = s.responses := rfl

@[simp] theorem toTransport_length (w : Word) : (toTransport w).length = 4 := by simp [toTransport]

/-- The four bytes of a word, put back in their places, are the word. -/
theorem bytes_append (w : Word) : byteOf w 3 ++ byteOf w 2 ++ byteOf w 1 ++ byteOf w 0 = w := by
  apply BitVec.eq_of_getLsbD_eq
  intro i hi
  simp only [byteOf, BitVec.getLsbD_append, BitVec.getLsbD_extractLsb']
  interval_cases i <;> rfl

/-- A word that crosses a narrower transport arrives whole, whatever the byte order (20_memory R55). -/
theorem ofTransport_toTransport (w : Word) : ofTransport (toTransport w) = some w := by
  have carried : ∀ k : Fin 4, (toTransport w).get
      (Fin.cast (toTransport_length w).symm (Config.transportByteOrder.symm k)) = byteOf w k := by
    intro k
    simp only [toTransport, List.get_ofFn]
    exact congrArg (byteOf w) (Equiv.apply_symm_apply _ k)
  simp only [ofTransport, toTransport_length, dif_pos, carried, bytes_append]

end Sys2Proof.Machine
end

