-- ==== Sys2Proof/Laws/Step.lean ====
section
/-! SUPPORT. Inversion: everything a command, a command word and a step can do, said once. -/

namespace Sys2Proof.Machine

/-- Every way the shared cell operation can end, with the record it writes. -/
theorem updateCell_ends (f : Bool → Bool) (md : RegNo) (r c : Shape) (s : State) :
    (∃ g, g ≠ .none ∧ g ≠ .illegalCommand ∧ updateCell f md r c s = raise g s) ∨
    (∃ M, General md ∧ (s.StorageInv → M.Wf) ∧ updateCell f md r c s = complete (s.writeMR md M)) ∨
    updateCell f md r c s = complete s := by
  rcases updateCell_cases f md r c s with ⟨_, h⟩ | ⟨_, _, h⟩ | ⟨_, _, _, h⟩ | ⟨hg, hp, hin, h⟩
  · exact .inl ⟨_, by decide, by decide, h⟩
  · exact .inr (.inr h)
  · exact .inl ⟨_, by decide, by decide, h⟩
  · exact .inr (.inl ⟨_, hg, fun hs => withBit_wf _ _ _ _ (hs md) hp hin, h⟩)

/-- Every way a command can end: a fault other than IllegalCommand; its destination register written, and nothing else;
nothing written; RES written; or DEC's writes of RES and STAT. -/
theorem exec_cases (i : Instr) (s : State) :
    (∃ f, f ≠ .none ∧ f ≠ .illegalCommand ∧ (∀ imm, i ≠ .dec imm) ∧ exec i s = raise f s) ∨
    (∃ md M, target i = some md ∧ General md ∧ (s.StorageInv → M.Wf) ∧ exec i s = complete (s.writeMR md M)) ∨
    (writesRes i = false ∧ exec i s = complete s) ∨
    (∃ v, writesRes i = true ∧ (∀ imm, i ≠ .dec imm) ∧ exec i s = complete { s with res := v }) ∨
    (∃ imm v x, i = .dec imm ∧ (x = .ok ∨ x = .corrected) ∧ exec i s = complete { s with res := v, stat := x }) ∨
    (∃ imm, i = .dec imm ∧ exec i s = complete { s with stat := .uncorrectable }) := by
  have gen : ∀ {md}, ¬ isConst md = true → General md := fun h => (isConst_eq_false_iff _).1 (by simpa using h)
  have cell : ∀ (j : Instr) (f : Bool → Bool) (md : RegNo) (r c : Shape), target j = some md → writesRes j = false →
      (∀ imm, j ≠ .dec imm) → exec j s = updateCell f md r c s →
      (∃ f, f ≠ .none ∧ f ≠ .illegalCommand ∧ (∀ imm, j ≠ .dec imm) ∧ exec j s = raise f s) ∨
      (∃ md M, target j = some md ∧ General md ∧ (s.StorageInv → M.Wf) ∧ exec j s = complete (s.writeMR md M)) ∨
      (writesRes j = false ∧ exec j s = complete s) := by
    intro j f md r c ht hw hd he
    rcases updateCell_ends f md r c s with ⟨g, h0, h1, h⟩ | ⟨M, hg, hM, h⟩ | h
    · exact .inl ⟨g, h0, h1, hd, he.trans h⟩
    · exact .inr (.inl ⟨md, M, ht, hg, hM, he.trans h⟩)
    · exact .inr (.inr ⟨hw, he.trans h⟩)
  have lift : ∀ {a b c d e f : Prop}, (a ∨ b ∨ c) → a ∨ b ∨ c ∨ d ∨ e ∨ f := by tauto
  cases i with
  | nop => exact .inr (.inr (.inl ⟨rfl, rfl⟩))
  | create md r c =>
    simp only [exec, execCreate]; split
    · exact .inl ⟨_, by decide, by decide, by simp, rfl⟩
    split <;> rename_i h
    · exact .inl ⟨_, by decide, by decide, by simp, rfl⟩
    · simp only [Config.maxDim, not_or, not_lt] at h
      exact .inr (.inl ⟨md, _, rfl, gen ‹_›, fun _ => zeroMatrix_wf _ _ h.1 h.2, rfl⟩)
  | free md =>
    simp only [exec, execFree]; split
    · exact .inl ⟨_, by decide, by decide, by simp, rfl⟩
    · exact .inr (.inl ⟨md, _, rfl, gen ‹_›, fun _ => absent_wf, rfl⟩)
  | rows ma => exact .inr (.inr (.inr (.inl ⟨_, rfl, by simp, rfl⟩)))
  | cols ma => exact .inr (.inr (.inr (.inl ⟨_, rfl, by simp, rfl⟩)))
  | len ma => exact .inr (.inr (.inr (.inl ⟨_, rfl, by simp, rfl⟩)))
  | getbit ma r c =>
    simp only [exec, execGetbit]; split
    · exact .inr (.inr (.inr (.inl ⟨_, rfl, by simp, rfl⟩)))
    split
    · exact .inl ⟨_, by decide, by decide, by simp, rfl⟩
    · exact .inr (.inr (.inr (.inl ⟨_, rfl, by simp, rfl⟩)))
  | setbit md r c => exact lift (cell (.setbit md r c) (fun _ => true) md r c rfl rfl (by simp) rfl)
  | clrbit md r c => exact lift (cell (.clrbit md r c) (fun _ => false) md r c rfl rfl (by simp) rfl)
  | tglbit md r c => exact lift (cell (.tglbit md r c) (fun x => x ^^ true) md r c rfl rfl (by simp) rfl)
  | xorbit md r c b => exact lift (cell (.xorbit md r c b) (fun x => x ^^ b.getLsbD 0) md r c rfl rfl (by simp) rfl)
  | frombyte md b n =>
    simp only [exec, execFrombyte]; split
    · exact .inl ⟨_, by decide, by decide, by simp, rfl⟩
    split <;> rename_i h
    · exact .inl ⟨_, by decide, by decide, by simp, rfl⟩
    · simp only [Config.maxDim, not_lt] at h
      exact .inr (.inl ⟨md, _, rfl, gen ‹_›, fun _ => rowOfByte_wf _ _ h, rfl⟩)
  | tobyte ma => exact .inr (.inr (.inr (.inl ⟨_, rfl, by simp, rfl⟩)))
  | mul md ma mb =>
    simp only [exec, execMul]; split
    · exact .inl ⟨_, by decide, by decide, by simp, rfl⟩
    split
    · exact .inl ⟨_, by decide, by decide, by simp, rfl⟩
    split
    · exact .inl ⟨_, by decide, by decide, by simp, rfl⟩
    · exact .inr (.inl ⟨md, _, rfl, gen ‹_›, fun hs => multiply_wf _ _ (hs ma) (hs mb), rfl⟩)
  | enc imm => exact .inr (.inr (.inr (.inl ⟨_, rfl, by simp, rfl⟩)))
  | dec imm =>
    simp only [exec, execDec]; split
    · exact .inr (.inr (.inr (.inr (.inl ⟨imm, _, _, rfl, .inl rfl, rfl⟩))))
    split
    · exact .inr (.inr (.inr (.inr (.inr ⟨imm, rfl, rfl⟩))))
    · exact .inr (.inr (.inr (.inr (.inl ⟨imm, _, _, rfl, .inr rfl, rfl⟩))))

/-- Every way a command word can end: a fault, which is IllegalCommand when the word is no command; or completion of a
decoded command, with the fault record and the port as they were and the storage invariant kept. -/
theorem issue_cases (w : Word) (s : State) :
    (∃ f, f ≠ .none ∧ ((∃ why, decode w = .error why) → f = .illegalCommand) ∧ issue w s = raise f s) ∨
    ((∃ i, decode w = .ok i) ∧ ∃ u, issue w s = complete u ∧ u.fsticky = s.fsticky ∧ u.fcause = s.fcause ∧
      u.hostEvents = s.hostEvents ∧ u.responses = s.responses ∧ (s.StorageInv → u.StorageInv)) := by
  unfold issue
  cases hd : decode w with
  | error why => exact .inl ⟨_, by decide, fun _ => rfl, rfl⟩
  | ok i =>
    rcases exec_cases i s with ⟨f, h0, _, _, h⟩ | ⟨md, M, _, _, hM, h⟩ | ⟨_, h⟩ | ⟨v, _, _, h⟩ | ⟨_, v, x, _, _, h⟩ | ⟨_, _, h⟩
    · exact .inl ⟨f, h0, (fun ⟨_, he⟩ => by cases he), h⟩
    · exact .inr ⟨⟨i, rfl⟩, _, h, by simp, by simp, by simp, by simp, fun hs => hs.writeMR md (hM hs)⟩
    · exact .inr ⟨⟨i, rfl⟩, _, h, rfl, rfl, rfl, rfl, id⟩
    · exact .inr ⟨⟨i, rfl⟩, _, h, rfl, rfl, rfl, rfl, id⟩
    · exact .inr ⟨⟨i, rfl⟩, _, h, rfl, rfl, rfl, rfl, id⟩
    · exact .inr ⟨⟨i, rfl⟩, _, h, rfl, rfl, rfl, rfl, id⟩

/-- A step with a transaction left is that transaction on the state without it. -/
theorem step_of_cons {s : State} {e : HostEvent} {rest : List HostEvent} (h : s.hostEvents = e :: rest) :
    step s = transact e { s with hostEvents := rest } := by
  simp only [step, h]

/-- The command that `withFetchWord` places is the one the next step issues. -/
theorem step_withFetchWord (s : State) (nbits w : Nat) :
    step (s.withFetchWord nbits w) = issue (BitVec.ofNat 32 (w % 2 ^ nbits)) s := rfl

end Sys2Proof.Machine
end

