-- ==== Sys2Proof/Tests/Slice0.lean ====
section
/-! SUPPORT. The model's own tests: ill-formed assembler forms, one word for every row of the opcode table, single steps
with the values of spec/95_test_vectors.md, and a witness for the hypotheses of every statement. -/

namespace Sys2Proof.Tests

open Sys2Proof.Machine

/-! ## Helpers -/

/-- The state a command ends in (none where the machine stops, which it never does). -/
def ended : Result → Option State
  | .next s => some s
  | .fault _ => none
  | .refused _ => none

/-- The last response word a command word leaves. -/
def answer (w : Word) (s : State) : Option Word := (ended (issue w s)).bind (fun t => t.responses.getLast?)

/-- The register `i` after a command word. -/
def regAfter (w : Word) (i : RegNo) (s : State) : Option MatrixReg := (ended (issue w s)).map (fun t => t.readMR i)

/-- The reset state with a matrix in one register. -/
def withMatrix (i : RegNo) (rows cols : Shape) (bits : Cells) : State :=
  State.reset.writeMR i { present := true, rows := rows, cols := cols, bits := bits }

/-- MR0 and MR1 of the start of program P5: A is 2×3 and B is 3×2. -/
def twoMatrices : State :=
  (withMatrix 0 2 3 0x35).writeMR 1 { present := true, rows := 3, cols := 2, bits := 0x39 }

/-- The reset state with command words for the host to issue. -/
def withCommands (ws : List Word) : State := { State.reset with hostEvents := ws.map .command }

/-! ## Well-formedness (30_encoding R79): an ill-formed form for each check -/

theorem test_shape_too_wide : (AsmForm.create 0 16 1).fits = false ∧ (AsmForm.setbit 0 1 16).fits = false := by decide
theorem test_length_too_wide : (AsmForm.frombyte 0 0 16).fits = false := by decide
theorem test_byte_too_wide : (AsmForm.enc 256).fits = false ∧ (AsmForm.frombyte 0 256 1).fits = false := by decide
theorem test_bit_too_wide : (AsmForm.xorbit 0 0 0 2).fits = false := by decide
theorem test_run_time_fault_is_well_formed : (AsmForm.create 0 9 1).fits = true ∧ (AsmForm.enc 255).fits = true := by
  decide
theorem test_refused_forms_have_no_word : assemble (.create 0 16 1) = none ∧ assemble (.dec 256) = none := by decide

/-! ## Decoding: one word for every row, written out from the fields of 30_encoding R71 -/

theorem test_decode_nop : decode 0x00000000 = .ok .nop := by decide
-- IMM8 0, FJ 8, FI 4, RSV MB MA 0, MD 2, OP 00001
theorem test_decode_create : decode 0b00000000_1000_0100_00_000_000_010_00001 = .ok (.create 2 4 8) := by decide
theorem test_decode_free : decode 0b00000000_0000_0000_00_000_000_010_00010 = .ok (.free 2) := by decide
theorem test_decode_rows : decode 0b00000000_0000_0000_00_000_110_000_00011 = .ok (.rows 6) := by decide
theorem test_decode_cols : decode 0b00000000_0000_0000_00_000_111_000_00100 = .ok (.cols 7) := by decide
theorem test_decode_len : decode 0b00000000_0000_0000_00_000_110_000_00101 = .ok (.len 6) := by decide
theorem test_decode_getbit : decode 0b00000000_0101_0000_00_000_110_000_00110 = .ok (.getbit 6 0 5) := by decide
theorem test_decode_setbit : decode 0b00000000_0010_0001_00_000_000_000_00111 = .ok (.setbit 0 1 2) := by decide
theorem test_decode_clrbit : decode 0b00000000_0111_0000_00_000_000_000_01000 = .ok (.clrbit 0 0 7) := by decide
theorem test_decode_tglbit : decode 0b00000000_0011_0010_00_000_000_101_01001 = .ok (.tglbit 5 2 3) := by decide
theorem test_decode_xorbit : decode 0b00000001_0010_0000_00_000_000_000_01010 = .ok (.xorbit 0 0 2 1) := by decide
theorem test_decode_frombyte : decode 0b00001011_0000_0100_00_000_000_000_01011 = .ok (.frombyte 0 0x0B 4) := by decide
theorem test_decode_tobyte : decode 0b00000000_0000_0000_00_000_111_000_01100 = .ok (.tobyte 7) := by decide
theorem test_decode_mul : decode 0b00000000_0000_0000_00_110_000_001_01101 = .ok (.mul 1 0 6) := by decide
theorem test_decode_enc : decode 0b00001011_0000_0000_00_000_000_000_01110 = .ok (.enc 0x0B) := by decide
theorem test_decode_dec : decode 0b01001010_0000_0000_00_000_000_000_01111 = .ok (.dec 0x4A) := by decide

/-- V-ILL: reserved opcodes, RSV bits, and fields the opcode does not use. -/
theorem test_decode_illegal :
    decode 0x00000010 = .error .reservedOpcode ∧ decode 0x0000001F = .error .reservedOpcode ∧
    [(0x00004000 : Word), 0x00000100, 0x01000001, 0x0200000A, 0x0001000D, 0x0000800F].map decode
      = List.replicate 6 (.error .unusedFieldSet) := by decide

/-- The ENC exemption: IMM8[7:4] is taken. -/
theorem test_decode_enc_high_nibble : decode 0xF000000E = .ok (.enc 0xF0) := by decide

theorem test_table_word : decodeTableWord 32 0x0000302D = some (.mul 1 0 6) ∧ decodeTableWord 32 0x10 = none := by decide

/-- The placed command is the first that runs: V-ENC, m = 0xB from reset. -/
theorem test_placed_command_runs :
    (ended (step (State.reset.withFetchWord 32 0x0B00000E))).map (fun t => (t.res, t.responses, t.hostEvents))
      = some (0x4B, [0x0000034B], []) := by decide

/-! ## Single commands, with the values of 95_test_vectors -/

theorem test_nop_answers : answer 0x00000000 State.reset = some 0x00000300 := by decide
theorem test_create : regAfter 0x00840001 0 State.reset = some { present := true, rows := 4, cols := 8, bits := 0 } := by
  decide
theorem test_create_too_large : answer 0x00F10021 State.reset = some 0x0000AB00 ∧
    regAfter 0x00F10021 1 State.reset = some MatrixReg.absent := by decide
theorem test_free : regAfter 0x00000002 0 (withMatrix 0 3 5 0) = some MatrixReg.absent := by decide
theorem test_free_constant : answer 0x000000E2 State.reset = some 0x0001FF00 := by decide
theorem test_rows : answer 0x00000003 (withMatrix 0 3 5 0) = some 0x00000303 := by decide
theorem test_cols : answer 0x00000004 (withMatrix 0 3 5 0) = some 0x00000305 := by decide
theorem test_len : answer 0x00000005 (withMatrix 0 8 8 0) = some 0x00000340 := by decide
theorem test_len_absent : answer 0x00000005 State.reset = some 0x00000300 := by decide
theorem test_getbit_constant : answer 0x00370706 State.reset = some 0x00000301 := by decide
theorem test_getbit_present_empty : answer 0x00000006 (withMatrix 0 0 0 0) = some 0x0001BB00 := by decide
theorem test_setbit : (regAfter 0x00210007 0 (withMatrix 0 2 3 0)).map (·.bits) = some 0x20 := by decide
theorem test_setbit_row_outside : answer 0x00020007 (withMatrix 0 2 3 0) = some 0x0001BB00 := by decide
theorem test_clrbit : (regAfter 0x00700008 0 (withMatrix 0 1 8 0xFF)).map (·.bits) = some 0x7F := by decide
theorem test_clrbit_absent : answer 0x00700008 State.reset = some 0x00000300 := by decide
theorem test_tglbit : (regAfter 0x00000009 0 (withMatrix 0 1 8 0x4B)).map (·.bits) = some 0x4A := by decide
theorem test_tglbit_constant : answer 0x000000C9 State.reset = some 0x0001FF00 := by decide
theorem test_xorbit_twice : (regAfter 0x0120000A 0 (withMatrix 0 1 4 4)).map (·.bits) = some 0 := by decide
theorem test_xorbit_zero_outside : answer 0x0040000A (withMatrix 0 1 4 0) = some 0x0001BB00 := by decide
theorem test_frombyte_drops_high_bits :
    regAfter 0xFB04000B 0 State.reset = some { present := true, rows := 1, cols := 4, bits := 0xB } := by decide
theorem test_frombyte_length_nine : answer 0xA509000B State.reset = some 0x0000EF00 := by decide
theorem test_tobyte_row_zero : answer 0x0000070C State.reset = some 0x0000030E := by decide
theorem test_tobyte_no_row : answer 0x0000000C (withMatrix 0 0 5 0) = some 0x00000300 := by decide
/-- P5 step 11 and its end state: A·B = [[0,1],[1,0]]. -/
theorem test_mul : regAfter 0x0000084D 2 twoMatrices = some { present := true, rows := 2, cols := 2, bits := 0x6 } := by
  decide
/-- V-MUL: the destination is both sources. -/
theorem test_mul_in_place : (regAfter 0x0000000D 0 (withMatrix 0 2 2 0xB)).map (·.bits) = some 0x9 := by decide
theorem test_enc : answer 0x0E00000E State.reset = some 0x0000031E := by decide
theorem test_enc_ignores_high_nibble : answer 0xF000000E State.reset = some 0x00000300 := by decide
theorem test_dec_corrects : answer 0x4A00000F State.reset = some 0x0000010B := by decide
/-- V-DEC2: a double flip leaves RES as it was. -/
theorem test_dec_uncorrectable : answer 0x4800000F { State.reset with res := 0x5A } = some 0x0000025A := by decide

/-- V-FAULT: the priority of the checks. -/
theorem test_fault_priority :
    answer 0x009900C1 State.reset = some 0x0001FF00 ∧ answer 0x001140C1 State.reset = some 0x00006700 ∧
    answer 0x0000382D (withMatrix 0 0 3 0) = some 0x00017700 ∧ answer 0x0000000D (withMatrix 0 2 3 0) = some 0x00013300 := by
  decide

/-- P3 step 2: the first fault stays in FCAUSE. -/
theorem test_first_cause_stays :
    answer 0x000000C7 { State.reset with fsticky := true, fcause := .allocationError } = some 0x0000BF00 := by decide

/-- The line of text of the example of 30_encoding R77. -/
theorem test_line : assembleLine "frombyte m0, 0x0B, 4" = some 0x0B04000B := by decide

/-! ## Witnesses: a state and operands that meet the hypotheses of each statement, clause by clause -/

/-- What a command that faults answers, for the witnesses below. -/
theorem raised (f : FaultCode) (s : State) : ∃ t, raise f s = .next t ∧ Answered s t f :=
  ⟨_, rfl, answered_respond f rfl rfl⟩

/-- What a command that completes with the state `u` answers. -/
theorem completed (s u : State) (h : u.hostEvents = s.hostEvents) (h' : u.responses = s.responses) :
    ∃ t, complete u = .next t ∧ Answered s t .none := ⟨_, rfl, answered_respond .none h h'⟩

theorem witness_EncodeOfDecode : decode 0x01FF00EA = .ok (.xorbit 7 15 15 1) := by decide

theorem witness_IllegalWordsExactly :
    16 ≤ (fieldOP 0x00000010).toNat ∧ 16 ≤ (fieldOP 0xFFFFFFFF).toNat ∧
    ((fieldOP 0xF000000E).toNat < 16 ∧ UnusedFieldsZero (fieldOP 0xF000000E).toNat 0xF000000E) ∧
    ((fieldOP 0x0200000A).toNat < 16 ∧ ¬ UnusedFieldsZero (fieldOP 0x0200000A).toNat 0x0200000A) := by
  refine ⟨by decide, by decide, ⟨by decide, ?_⟩, by decide, ?_⟩
  · change _ = _ ∧ fieldMD 0xF000000E = 0 ∧ fieldMA 0xF000000E = 0 ∧ fieldMB 0xF000000E = 0 ∧
      fieldFI 0xF000000E = 0 ∧ fieldFJ 0xF000000E = 0
    decide
  · change ¬ (_ = _ ∧ fieldMA 0x0200000A = 0 ∧ fieldMB 0x0200000A = 0 ∧
      BitVec.extractLsb' 25 7 (0x0200000A : Word) = 0)
    decide

theorem witness_AssembleOneWord :
    (AsmForm.xorbit 0 15 15 1).fits = true ∧ (AsmForm.frombyte 0 255 15).fits = true ∧
    (AsmForm.xorbit 0 0 0 2).fits = false := by decide

theorem witness_ResetState : General 0 ∧ General 5 := by decide

/-- A cell on either side of the boundary between the identity and P. -/
theorem witness_GeneratorIsConstant : (3 : Nat) < 4 ∧ (3 : Nat) < 8 ∧ (4 : Nat) < 8 ∧ ¬ (4 : Nat) < 4 := by decide

theorem witness_ParityIsConstant : (3 : Nat) < 8 ∧ (3 : Nat) < 4 ∧ (4 : Nat) < 8 ∧ ¬ (4 : Nat) < 4 := by decide

theorem witness_ResetAssertion :
    (∃ s : State, s.hostEvents = .reset :: [.command 0x0]) ∧
    (∃ s : State, s.hostEvents = .resetDuring 0x0B00000E :: []) :=
  ⟨⟨{ State.reset with hostEvents := [.reset, .command 0x0] }, rfl⟩,
    ⟨{ State.reset with hostEvents := [.resetDuring 0x0B00000E] }, rfl⟩⟩

theorem witness_StepRunsDecodedCommand :
    (withCommands [0x0B00000E, 0x0]).hostEvents = .command 0x0B00000E :: [.command 0x0] ∧
    decode 0x0B00000E = .ok (.enc 0x0B) := by decide

theorem witness_StepIllegalCommand :
    (withCommands [0x10]).hostEvents = .command 0x10 :: [] ∧ decode 0x10 = .error .reservedOpcode ∧
    (withCommands [0x100]).hostEvents = .command 0x100 :: [] ∧ decode 0x100 = .error .unusedFieldSet := by decide

theorem witness_StepIdles : State.reset.hostEvents = [] := by decide

theorem witness_RunAnswersEachCommand :
    (withCommands [0x10, 0x0]).hostEvents = [(0x10 : Word), 0x0].map .command ++ [] := by decide

/-- Both values of FSTICKY, and a run whose first command does not fault and whose second does. -/
theorem witness_RunRecordsFirstFault :
    ((withCommands [0x0, 0x10]).hostEvents = [(0x0 : Word), 0x10].map .command ++ [] ∧
      (withCommands [0x0, 0x10]).fsticky = false) ∧
    ∃ s : State, s.hostEvents = [(0x10 : Word)].map .command ++ [.reset] ∧ s.fsticky = true :=
  ⟨by decide, { State.reset with hostEvents := [.command 0x10, .reset], fsticky := true, fcause := .constantWrite },
    by decide⟩

theorem witness_StepKeepsInvariant :
    (withCommands [0x10]).Inv ∧ ∃ t, step (withCommands [0x10]) = .next t := by
  refine ⟨⟨reset_storageInv, by decide, fun _ h => by cases h⟩, ?_⟩
  exact ⟨_, rfl⟩

theorem witness_ResponseWordFields :
    (∃ why, decode 0x10 = .error why) ∧
    (∃ t, issue 0x0 State.reset = .next t ∧ Answered State.reset t .none) ∧
    (∃ t, issue 0x10 State.reset = .next t ∧ Answered State.reset t .illegalCommand) :=
  ⟨⟨.reservedOpcode, by decide⟩, ⟨_, rfl, answered_respond .none rfl rfl⟩, ⟨_, rfl, answered_respond .illegalCommand rfl rfl⟩⟩

theorem witness_FaultsArePrecise :
    FaultCode.allocationError ≠ .none ∧
    ∃ t, issue 0x00190001 State.reset = .next t ∧ Answered State.reset t .allocationError :=
  ⟨by decide, raised _ _⟩

/-- FSTICKY 0 and 1 before a fault, and a command without one. -/
theorem witness_StickyFaultRecord :
    (∃ s t : State, s.fsticky = false ∧ issue 0x00190001 s = .next t ∧ Answered s t .allocationError) ∧
    (∃ s t : State, s.fsticky = true ∧ issue 0x000000C7 s = .next t ∧ Answered s t .constantWrite) ∧
    (∃ s t : State, s.fsticky = true ∧ issue 0x0 s = .next t ∧ Answered s t .none) :=
  ⟨⟨State.reset, _, rfl, rfl, answered_respond _ rfl rfl⟩,
    ⟨{ State.reset with fsticky := true, fcause := .allocationError }, _, rfl, rfl, answered_respond _ rfl rfl⟩,
    ⟨{ State.reset with fsticky := true, fcause := .allocationError }, _, rfl, rfl, answered_respond _ rfl rfl⟩⟩

/-- Each fault a decoded command can end in, and a command without one. -/
theorem witness_FaultCausesAndPriority :
    (∃ t, exec (.create 6 9 9) State.reset = .next t ∧ Answered State.reset t .constantWrite) ∧
    (∃ t, exec (.create 5 0 9) State.reset = .next t ∧ Answered State.reset t .allocationError) ∧
    (∃ t, exec (.frombyte 0 1 9) State.reset = .next t ∧ Answered State.reset t .invalidLength) ∧
    (∃ t, exec (.getbit 6 4 0) State.reset = .next t ∧ Answered State.reset t .indexOutOfRange) ∧
    (∃ t, exec (.setbit 0 0 3) (withMatrix 0 2 3 0) = .next t ∧ Answered (withMatrix 0 2 3 0) t .indexOutOfRange) ∧
    (∃ t, exec (.mul 2 0 6) State.reset = .next t ∧ Answered State.reset t .degenerateOperand) ∧
    (∃ t, exec (.mul 2 6 6) State.reset = .next t ∧ Answered State.reset t .dimensionMismatch) ∧
    (∃ t, exec .nop State.reset = .next t ∧ Answered State.reset t .none) :=
  ⟨raised _ _, raised _ _, raised _ _, raised _ _, raised _ _, raised _ _, raised _ _, completed _ _ rfl rfl⟩

theorem witness_OnlyTheTargetIsWritten :
    (∃ t, exec (.setbit 0 1 2) (withMatrix 0 2 3 0) = .next t) ∧ target (.setbit 0 1 2) ≠ some 1 ∧
    Instr.setbit 0 1 2 ∈ [Instr.setbit 0 1 2, .clrbit 0 1 2, .tglbit 0 1 2, .xorbit 0 1 2 0] :=
  ⟨⟨_, rfl⟩, by decide, by decide⟩

theorem witness_OnlyValueCommandsWriteRes :
    (∃ t, exec .nop State.reset = .next t ∧ writesRes .nop = false) ∧
    (∃ t, exec (.dec 0x03) State.reset = .next t ∧ t.stat = .uncorrectable) := ⟨⟨_, rfl, rfl⟩, _, rfl, rfl⟩

theorem witness_OnlyDecWritesStat :
    (∃ t, exec (.enc 0x0B) State.reset = .next t) ∧ (∀ imm, Instr.enc 0x0B ≠ .dec imm) ∧
    (∃ t, exec (.dec 0x4B) State.reset = .next t) := ⟨⟨_, rfl⟩, by simp, _, rfl⟩

/-- XORBIT with b = 0, and MUL with a destination that is no source. -/
theorem witness_IssuingTwiceIsIssuingOnce :
    (mayDifferTwice (.xorbit 0 0 0 0) = false ∧ ∃ t u, exec (.xorbit 0 0 0 0) (withMatrix 0 1 1 1) = .next t ∧
      exec (.xorbit 0 0 0 0) t = .next u) ∧
    (mayDifferTwice (.mul 1 0 6) = false ∧ ∃ t u, exec (.mul 1 0 6) (withMatrix 0 1 4 0xB) = .next t ∧
      exec (.mul 1 0 6) t = .next u) := ⟨⟨rfl, _, _, rfl, rfl⟩, rfl, _, _, rfl, rfl⟩

theorem witness_CommandsReadTheBlockAlone :
    SameBlock State.reset { State.reset with hostEvents := [.reset], responses := [0x300] } ∧
    (∃ t, issue 0x0B00000E State.reset = .next t) ∧
    (∃ t, issue 0x0B00000E { State.reset with hostEvents := [.reset], responses := [0x300] } = .next t) :=
  ⟨⟨fun _ => rfl, rfl, rfl, rfl, rfl⟩, ⟨_, rfl⟩, _, rfl⟩

theorem witness_CodecReadsItsOperandAlone :
    (∃ t₁ t₂, exec (.enc 0x0B) State.reset = .next t₁ ∧ exec (.enc 0x0B) (withMatrix 0 1 1 1) = .next t₂) ∧
    (∃ t₁ t₂, exec (.dec 0x4A) State.reset = .next t₁ ∧ exec (.dec 0x4A) (withMatrix 0 1 1 1) = .next t₂ ∧
      t₁.stat ≠ .uncorrectable) := ⟨⟨_, _, rfl, rfl⟩, _, _, rfl, rfl, by decide⟩

theorem witness_NopOnlyAnswers :
    fieldOP 0x00004000 = 0 ∧ (0x00004000 : Word) ≠ 0 ∧ fieldOP 0x00000020 = 0 ∧ (0x00000020 : Word) ≠ 0 := by decide

theorem witness_CreateMakesZeroMatrix :
    (General 5 ∧ (8 : Shape).toNat ≤ 8 ∧ (0 : Shape).toNat ≤ 8) ∧ Constant 6 ∧ Constant 7 ∧
    (General 0 ∧ (8 < (9 : Shape).toNat ∨ 8 < (1 : Shape).toNat)) ∧
    (General 0 ∧ (8 < (1 : Shape).toNat ∨ 8 < (15 : Shape).toNat)) := by decide

theorem witness_FreeMakesAbsent : General 0 ∧ General 5 ∧ Constant 6 ∧ Constant 7 := by decide

theorem witness_AbsencePolicy :
    State.reset.readMR 5 = { present := false, rows := 0, cols := 0, bits := 0 } ∧ General 0 := by decide

theorem witness_RowsReadsRowCount : State.reset.StorageInv ∧ (State.reset.readMR 0).present = false := by decide
theorem witness_ColsReadsColumnCount : State.reset.StorageInv ∧ (State.reset.readMR 0).present = false := by decide
theorem witness_LenReadsCellCount :
    (withMatrix 0 8 8 0).StorageInv ∧ ((withMatrix 0 8 8 0).readMR 1).present = false := by decide

/-- An absent register; the row and the column at the edge; the last cell. -/
theorem witness_CellCheckAndAbsence :
    (State.reset.readMR 0).present = false ∧
    (((withMatrix 0 2 3 0).readMR 0).present = true ∧ ((withMatrix 0 2 3 0).readMR 0).rows ≤ 2) ∧
    (((withMatrix 0 2 3 0).readMR 0).present = true ∧ ((withMatrix 0 2 3 0).readMR 0).cols ≤ 3) ∧
    (((withMatrix 0 2 3 0).readMR 0).present = true ∧
      ¬ (((withMatrix 0 2 3 0).readMR 0).rows ≤ 1 ∨ ((withMatrix 0 2 3 0).readMR 0).cols ≤ 2)) ∧ General 0 := by decide

theorem witness_GetbitReadsCell :
    (State.reset.readMR 0).present = false ∧
    ((State.reset.readMR 6).present = true ∧ ¬ CellIn (State.reset.readMR 6) 4 0) ∧
    ((State.reset.readMR 6).present = true ∧ CellIn (State.reset.readMR 6) 3 7) := by decide

/-- The hypotheses that SETBIT, CLRBIT, TGLBIT and XORBIT share, clause by clause. -/
abbrev CellHypotheses : Prop :=
    State.reset.StorageInv ∧ (withMatrix 0 2 3 0).StorageInv ∧ Constant 6 ∧ Constant 7 ∧
    (General 0 ∧ (State.reset.readMR 0).present = false) ∧
    (General 0 ∧ ((withMatrix 0 2 3 0).readMR 0).present = true ∧ ¬ CellIn ((withMatrix 0 2 3 0).readMR 0) 2 0) ∧
    (General 0 ∧ ((withMatrix 0 2 3 0).readMR 0).present = true ∧ CellIn ((withMatrix 0 2 3 0).readMR 0) 1 2)

theorem witness_SetbitSetsCell : CellHypotheses := by decide
theorem witness_ClrbitClearsCell : CellHypotheses := by decide
theorem witness_TglbitInvertsCell : CellHypotheses := by decide
theorem witness_XorbitAddsIntoCell : CellHypotheses := by decide

/-- The written cell itself, and a cell of another register. -/
theorem witness_CellsAreSeparate :
    (withMatrix 0 2 3 0).StorageInv ∧ General 0 ∧ ((withMatrix 0 2 3 0).readMR 0).present = true ∧
    CellIn ((withMatrix 0 2 3 0).readMR 0) 1 2 ∧ CellIn ((withMatrix 0 2 3 0).readMR 0) 1 1 ∧
    ((withMatrix 0 2 3 0).readMR 6).present = true ∧ CellIn ((withMatrix 0 2 3 0).readMR 6) 3 7 := by decide

theorem witness_FrombyteBuildsRow :
    Constant 7 ∧ (General 0 ∧ 8 < (9 : Shape).toNat) ∧ (General 5 ∧ (8 : Shape).toNat ≤ 8) ∧ (0 : Shape).toNat ≤ 8 := by
  decide

/-- Absent; present with no row; present with a row and no column; present with more than one row. -/
theorem witness_TobytePacksRowZero :
    (State.reset.readMR 0).present = false ∧ ((withMatrix 0 0 5 0).readMR 0).rows = 0 ∧
    (((withMatrix 0 1 0 0).readMR 0).present = true ∧ ((withMatrix 0 1 0 0).readMR 0).rows ≠ 0) ∧
    ((State.reset.readMR 7).present = true ∧ (State.reset.readMR 7).rows ≠ 0) := by decide

theorem witness_ByteRoundTrip : General 0 ∧ (0 : Shape).toNat ≤ 8 ∧ (8 : Shape).toNat ≤ 8 := by decide

theorem witness_MulIsMatrixProduct :
    (withMatrix 0 1 4 0xB).StorageInv ∧ Constant 6 ∧
    (General 1 ∧ Degenerate (State.reset.readMR 0)) ∧ Degenerate ((withMatrix 0 2 0 0).readMR 0) ∧
    (General 1 ∧ ¬ Degenerate ((withMatrix 0 1 4 0xB).readMR 0) ∧ ¬ Degenerate ((withMatrix 0 1 4 0xB).readMR 7) ∧
      ((withMatrix 0 1 4 0xB).readMR 0).cols ≠ ((withMatrix 0 1 4 0xB).readMR 7).rows) ∧
    (General 0 ∧ ¬ Degenerate ((withMatrix 0 1 4 0xB).readMR 6) ∧
      ((withMatrix 0 1 4 0xB).readMR 0).cols = ((withMatrix 0 1 4 0xB).readMR 6).rows) := by decide

theorem witness_ConstantProducts : General 0 ∧ General 5 := by decide

theorem witness_EncEncodesMessage :
    (7 : Nat) < 8 ∧ (3 : Nat) < 4 ∧ (0x01 : Byte).extractLsb' 0 4 ≠ 0 ∧ (0xF8 : Byte).extractLsb' 0 4 ≠ 0 := by decide

theorem witness_SyndromeClosedForm : (0 : Nat) < 4 ∧ (3 : Nat) < 4 := by decide

/-- Syndrome 0; an ERR syndrome; a message bit and a parity bit flipped. -/
theorem witness_DecDecodesCodeword :
    syndrome 0x4B = 0 ∧ (syndrome 0x48 ≠ 0 ∧ slut (syndrome 0x48) = none) ∧
    (syndrome 0x4A ≠ 0 ∧ slut (syndrome 0x4A) = some 0) ∧
    (syndrome 0xCB ≠ 0 ∧ slut (syndrome 0xCB) = some 7 ∧ 4 ≤ (7 : BitVec 3).toNat) := by decide

theorem witness_RoundTripWithoutError : (0x0F : Byte).toNat < 16 := by decide
theorem witness_SingleErrorIsCorrected : (0x0F : Byte).toNat < 16 ∧ (7 : Nat) < 8 := by decide
theorem witness_DoubleAndTripleErrors :
    (0x0F : Byte).toNat < 16 ∧ (0 : Nat) < 6 ∧ (6 : Nat) < 8 ∧ (6 : Nat) < 7 ∧ (7 : Nat) < 8 := by decide

/-- Two different registers and one register for both; a byte whose syndrome names a position, and one of syndrome 3. -/
theorem witness_CodecEqualsMatrixCourse :
    General 0 ∧ General 5 ∧ slut (syndrome 0x4A) = some 0 ∧ syndrome 0x03 ≠ 0 ∧ slut (syndrome 0x03) = none := by decide

theorem witness_StreamSurvivesSingleErrors :
    (withCommands (encodeStreamCommands [0xA7])).hostEvents = (encodeStreamCommands [0xA7]).map .command ∧
    OneBitApart [0x87, 0xAA] [0x86, 0xAA] ∧
    ∃ ws, decodeStreamCommands [0x86, 0xAA] = some ws ∧ (withCommands ws).hostEvents = ws.map .command :=
  ⟨rfl, ⟨.inr ⟨0, by decide, by decide⟩, .inl rfl, trivial⟩, _, rfl, rfl⟩

end Sys2Proof.Tests
end

section
/-! PROOFS. The statements about the state: its reset value and its constants, the invariant every step keeps, the fault
record over a run, what each command may write, and the separation of cells (spec 10_state). -/

namespace Sys2Proof.Machine

/-! ## The fault record and the response word -/

theorem FaultCode.code_eq_zero_iff (f : FaultCode) : f.code = 0 ↔ f = .none := by
  cases f <;> decide

/-- A response word of a state whose fault record is sound has a legal form. -/
theorem ResponseOf.legal {t : State} {f : FaultCode} {r : Word} (h : ResponseOf t f r) (hrec : t.RecordInv)
    (hf : f ≠ .none → t.fsticky = true) : ResponseLegal r := by
  obtain ⟨-, -, hfault, hsticky, hcause, hzero⟩ := h
  have sticky_iff : rspSticky r = 1 ↔ t.fsticky = true := by
    rw [hsticky]; cases t.fsticky <;> decide
  refine ⟨hzero, ?_, ?_⟩
  · rw [sticky_iff, hcause, ne_eq, FaultCode.code_eq_zero_iff]
    exact hrec
  · rw [sticky_iff, hfault, ne_eq, FaultCode.code_eq_zero_iff]
    exact hf

/-! ## The invariant, operation by operation -/

/-- The invariant reads the registers, the fault record and the responses, and nothing else. -/
theorem State.Inv.withHostEvents {s : State} (h : s.Inv) (es : List HostEvent) :
    State.Inv { s with hostEvents := es } := h

theorem State.Inv.respond {s : State} (h : s.Inv) {f : FaultCode} (hf : f ≠ .none → s.fsticky = true) :
    (s.respond f).Inv := by
  obtain ⟨hmr, hrec, hrsp⟩ := h
  refine ⟨hmr, hrec, fun r hr => ?_⟩
  rw [State.respond_responses, List.mem_append, List.mem_singleton] at hr
  rcases hr with hr | rfl
  · exact hrsp r hr
  · exact (responseWord_responseOf s f).legal hrec hf

theorem State.Inv.recordFault {s : State} (h : s.Inv) {f : FaultCode} (hf : f ≠ .none) : (s.recordFault f).Inv := by
  obtain ⟨hmr, hrec, hrsp⟩ := h
  refine ⟨hmr, ?_, hrsp⟩
  cases hs : s.fsticky with
  | false => simpa [State.RecordInv, hs] using hf
  | true => simpa [State.RecordInv, hs] using hrec

theorem State.Inv.assertReset {s : State} (h : s.Inv) : s.assertReset.Inv :=
  ⟨reset_storageInv, by simp [State.RecordInv], h.2.2⟩

theorem State.Inv.issue {s t : State} (h : s.Inv) {w : Word} (he : issue w s = .next t) : t.Inv := by
  rcases issue_cases w s with ⟨f, hf, -, hi⟩ | ⟨-, u, hi, hsticky, hcause, -, hrsp, hmr⟩
  · obtain rfl := (raise_eq_next_iff f s t).1 (hi ▸ he)
    exact (h.recordFault hf).respond fun _ => rfl
  · obtain rfl := (complete_eq_next_iff u t).1 (hi ▸ he)
    obtain ⟨hs, hrec, hlegal⟩ := h
    have hu : u.Inv := ⟨hmr hs, by rw [State.RecordInv, hsticky, hcause]; exact hrec, by rw [hrsp]; exact hlegal⟩
    exact hu.respond fun hn => absurd rfl hn

theorem State.Inv.transact {s t : State} (h : s.Inv) {e : HostEvent} (he : transact e s = .next t) : t.Inv := by
  cases e with
  | command w => exact h.issue he
  | reset => cases he; exact h.assertReset
  | resetDuring w => cases he; exact h.assertReset

/-- Settles O20: the invariant is kept by each transaction, and an idle step changes nothing. -/
theorem stepKeepsInvariant : Obligations.StepKeepsInvariant := by
  intro s t hs ht
  cases he : s.hostEvents with
  | nil =>
    simp only [step, he, idle, Host.Outcome.next.injEq] at ht
    exact ht ▸ hs
  | cons e rest => exact (hs.withHostEvents rest).transact (step_of_cons he ▸ ht)

/-- Settles O21: every register of the reset state is absent or constant, no fault is recorded, no response returned. -/
theorem resetHasInvariant : Obligations.ResetHasInvariant :=
  ⟨reset_storageInv, by decide, by simp [State.reset]⟩

/-! ## The fault record over a run -/

/-- The fault record of `t` is that of `s` after a run that returned the responses `rs`: sticky when it was or when a
response reports a fault, the cause the first one reported unless there was one before (10_state R32, R33). -/
def FirstFaultRecorded (s : State) (rs : List Word) (t : State) : Prop :=
  (t.fsticky = true ↔ s.fsticky = true ∨ ∃ r ∈ rs, rspFault r ≠ 0) ∧
  (s.fsticky = true → t.fcause = s.fcause) ∧
  (s.fsticky = false → t.fcause.code = ((rs.map rspFault).find? (· != 0)).getD s.fcause.code)

theorem FirstFaultRecorded.refl (s : State) : FirstFaultRecorded s [] s := by
  simp [FirstFaultRecorded]

/-- A response without a fault in front of a run. -/
theorem FirstFaultRecorded.cons_of_noFault {s t u : State} {r : Word} {rs : List Word}
    (h : FirstFaultRecorded t rs u) (hr : rspFault r = 0) (hst : SameRecord s t) :
    FirstFaultRecorded s (r :: rs) u := by
  obtain ⟨hsticky, hcause⟩ := hst
  simpa [FirstFaultRecorded, hr, ← hsticky, ← hcause] using h

/-- A response that reports a fault in front of a run. -/
theorem FirstFaultRecorded.cons_of_fault {s t u : State} {r : Word} {rs : List Word} {f : FaultCode}
    (h : FirstFaultRecorded t rs u) (hf : f ≠ .none) (hr : rspFault r = f.code) (hsticky : t.fsticky = true)
    (hcause : t.fcause = if s.fsticky = true then s.fcause else f) : FirstFaultRecorded s (r :: rs) u := by
  obtain ⟨hu, hkeep, -⟩ := h
  have hcode : f.code ≠ 0 := mt (FaultCode.code_eq_zero_iff f).1 hf
  have hcause' : u.fcause = if s.fsticky = true then s.fcause else f := (hkeep hsticky).trans hcause
  refine ⟨?_, fun hs => ?_, fun hs => ?_⟩
  · exact iff_of_true (hu.2 (.inl hsticky)) (.inr ⟨r, by simp, by rwa [hr]⟩)
  · simp [hcause', hs]
  · have hfind : ((r :: rs).map rspFault).find? (· != 0) = some f.code := by
      rw [List.map_cons, hr]
      exact List.find?_cons_of_pos (bne_iff_ne.2 hcode)
    rw [hfind, hcause', hs]
    rfl

/-- A command word returns one response, and the record after it is that of the response. -/
theorem issue_answers (w : Word) (s : State) :
    ∃ t r, issue w s = .next t ∧ t.hostEvents = s.hostEvents ∧ t.responses = s.responses ++ [r] ∧
      ∀ rs u, FirstFaultRecorded t rs u → FirstFaultRecorded s (r :: rs) u := by
  rcases issue_cases w s with ⟨f, hf, -, hi⟩ | ⟨-, v, hi, hsticky, hcause, hev, hrsp, -⟩
  · obtain ⟨t, ht, -, -, -, hsticky, hcause, hev, r, hrsp, -, -, hfault, -⟩ := raise_faulted f s
    exact ⟨t, r, hi.trans ht, hev, hrsp, fun rs u h => h.cons_of_fault hf hfault hsticky hcause⟩
  · obtain ⟨-, -, hfault, -⟩ := responseWord_responseOf v .none
    exact ⟨v.respond .none, v.responseWord .none, hi, hev, by simp [hrsp],
      fun rs u h => h.cons_of_noFault hfault ⟨hsticky, hcause⟩⟩

/-- A run goes on from the state its first step answers. -/
theorem core_run_succ_of_step {s t : State} (h : step s = .next t) (k : Nat) :
    core.run (k + 1) s = core.run k t := by
  have hc : core.step s = .next t := h
  simp only [Host.Core.run, hc]

/-- Settles O19, by induction on the command words. -/
theorem runRecordsFirstFault : Obligations.RunRecordsFirstFault := by
  intro ws rest
  induction ws with
  | nil => exact fun s _ => ⟨s, [], rfl, by simp, FirstFaultRecorded.refl s⟩
  | cons w ws ih =>
    intro s hs
    obtain ⟨t, r, hi, hev, hrsp, hrec⟩ := issue_answers w { s with hostEvents := ws.map .command ++ rest }
    obtain ⟨u, rs, hrun, hrsp', hrec'⟩ := ih t hev
    have hstep : step s = .next t := (step_of_cons hs).trans hi
    exact ⟨u, r :: rs, (core_run_succ_of_step hstep _).trans hrun, by simp [hrsp', hrsp], hrec rs u hrec'⟩

/-! ## What a command may write (10_state R35) -/

/-- The states a command can end in: `exec_cases` for a command that answered `t`. -/
theorem exec_next_cases {i : Instr} {s t : State} (h : exec i s = .next t) :
    (∃ f, f ≠ .none ∧ f ≠ .illegalCommand ∧ (∀ imm, i ≠ .dec imm) ∧ t = (s.recordFault f).respond f) ∨
    (∃ md M, target i = some md ∧ General md ∧ (s.StorageInv → M.Wf) ∧ t = (s.writeMR md M).respond .none) ∨
    (writesRes i = false ∧ t = s.respond .none) ∨
    (∃ v, writesRes i = true ∧ (∀ imm, i ≠ .dec imm) ∧ t = State.respond { s with res := v } .none) ∨
    (∃ imm v x, i = .dec imm ∧ (x = .ok ∨ x = .corrected) ∧
      t = State.respond { s with res := v, stat := x } .none) ∨
    (∃ imm, i = .dec imm ∧ t = State.respond { s with stat := .uncorrectable } .none) := by
  simpa only [h, eq_comm (a := Host.Outcome.next t), raise_eq_next_iff, complete_eq_next_iff] using exec_cases i s

/-- Every command returns one response word (60_exceptions R205). -/
theorem exec_answered {i : Instr} {s t : State} (h : exec i s = .next t) : ∃ f, Answered s t f := by
  rcases exec_next_cases h with ⟨f, -, -, -, rfl⟩ | ⟨md, M, -, -, -, rfl⟩ | ⟨-, rfl⟩ | ⟨v, -, -, rfl⟩ |
    ⟨imm, v, x, -, -, rfl⟩ | ⟨imm, -, rfl⟩
  case inr.inl => exact ⟨_, answered_respond _ (by simp) (by simp)⟩
  all_goals exact ⟨_, answered_respond _ rfl rfl⟩

/-- A command leaves every matrix register but its destination alone. -/
theorem exec_readMR_of_not_target {i : Instr} {s t : State} (h : exec i s = .next t) {j : RegNo}
    (hj : target i ≠ some j) : t.readMR j = s.readMR j := by
  rcases exec_next_cases h with ⟨f, -, -, -, rfl⟩ | ⟨md, M, htgt, -, -, rfl⟩ | ⟨-, rfl⟩ | ⟨v, -, -, rfl⟩ |
    ⟨imm, v, x, -, -, rfl⟩ | ⟨imm, -, rfl⟩
  case inr.inl =>
    have hne : j ≠ md := fun e => hj (e ▸ htgt)
    simpa using State.readMR_writeMR_ne s M hne
  all_goals rfl

/-- The shared cell operation keeps the present bit and the shape of its register. -/
theorem updateCell_keeps_shape {f : Bool → Bool} {md : RegNo} {r c : Shape} {s t : State}
    (h : updateCell f md r c s = .next t) :
    (t.readMR md).present = (s.readMR md).present ∧ (t.readMR md).rows = (s.readMR md).rows ∧
      (t.readMR md).cols = (s.readMR md).cols := by
  rcases updateCell_cases f md r c s with ⟨-, he⟩ | ⟨-, -, he⟩ | ⟨-, -, -, he⟩ | ⟨hg, -, -, he⟩ <;>
    rw [he] at h <;> cases h
  case inr.inr.inr => simp [State.readMR_writeMR_same _ _ hg]
  all_goals exact ⟨rfl, rfl, rfl⟩

/-- Settles O26: MR6 and MR7 read constants in every state. -/
theorem onlyTheTargetIsWritten : Obligations.OnlyTheTargetIsWritten := by
  intro i s t h
  refine ⟨fun j hj => exec_readMR_of_not_target h hj, fun md r c b hi => ?_, rfl, rfl⟩
  simp only [List.mem_cons, List.not_mem_nil, or_false] at hi
  rcases hi with rfl | rfl | rfl | rfl
  · exact updateCell_keeps_shape (f := fun _ => true) h
  · exact updateCell_keeps_shape (f := fun _ => false) h
  · exact updateCell_keeps_shape (f := fun x => x ^^ true) h
  · exact updateCell_keeps_shape (f := fun x => x ^^ b.getLsbD 0) h

/-- The states DEC can end in (43_codec R163). -/
theorem exec_dec_ends {imm : Byte} {s t : State} (h : exec (.dec imm) s = .next t) :
    (∃ v x, (x = .ok ∨ x = .corrected) ∧ t = State.respond { s with res := v, stat := x } .none) ∨
    t = State.respond { s with stat := .uncorrectable } .none := by
  rcases exec_next_cases h with ⟨f, -, -, hd, -⟩ | ⟨md, M, htgt, -⟩ | ⟨hw, -⟩ | ⟨v, -, hd, -⟩ |
    ⟨_, v, x, -, hx, ht⟩ | ⟨_, -, ht⟩
  · exact absurd rfl (hd imm)
  · cases htgt
  · cases hw
  · exact absurd rfl (hd imm)
  · exact .inl ⟨v, x, hx, ht⟩
  · exact .inr ht

/-- Settles O27, by the states a command, and DEC in particular, can end in. -/
theorem onlyValueCommandsWriteRes : Obligations.OnlyValueCommandsWriteRes := by
  intro i s t h
  obtain ⟨f, -, r, hr, hres, -⟩ := exec_answered h
  refine ⟨fun hw => ?_, fun imm hi hu => ?_, r, hr, hres⟩
  · rcases exec_next_cases h with ⟨f, -, -, -, rfl⟩ | ⟨md, M, -, -, -, rfl⟩ | ⟨-, rfl⟩ | ⟨v, hw', -⟩ |
      ⟨imm, v, x, rfl, -⟩ | ⟨imm, -, rfl⟩
    · rfl
    · simp
    · rfl
    · cases hw.symm.trans hw'
    · cases hw
    · rfl
  · subst hi
    rcases exec_dec_ends h with ⟨v, x, rfl | rfl, rfl⟩ | rfl
    · cases hu
    · cases hu
    · rfl

/-- Settles O28, by the states a command, and DEC in particular, can end in. -/
theorem onlyDecWritesStat : Obligations.OnlyDecWritesStat := by
  refine ⟨fun i s t h => ⟨fun hd => ?_, ?_⟩, rfl, rfl, rfl, rfl⟩
  · rcases exec_next_cases h with ⟨f, -, -, -, rfl⟩ | ⟨md, M, -, -, -, rfl⟩ | ⟨-, rfl⟩ | ⟨v, -, -, rfl⟩ |
      ⟨imm, v, x, hi, -⟩ | ⟨imm, hi, -⟩
    · rfl
    · simp
    · rfl
    · rfl
    · exact absurd hi (hd imm)
    · exact absurd hi (hd imm)
  · rintro ⟨imm, rfl⟩
    rcases exec_dec_ends h with ⟨v, x, rfl | rfl, rfl⟩ | rfl <;> simp

/-! ## Cells (10_state R22) -/

/-- Cells inside a matrix have different indices. -/
theorem CellIn.index_inj {M : MatrixReg} {r c r' c' : Shape} (h : CellIn M r c) (h' : CellIn M r' c') :
    r'.toNat * M.cols.toNat + c'.toNat = r.toNat * M.cols.toNat + c.toNat ↔ r' = r ∧ c' = c := by
  refine ⟨fun e => ?_, fun ⟨hr, hc⟩ => by rw [hr, hc]⟩
  have hc : c'.toNat = c.toNat := by
    simpa [Nat.mul_add_mod', Nat.mod_eq_of_lt h.2, Nat.mod_eq_of_lt h'.2] using congrArg (· % M.cols.toNat) e
  have hr : r'.toNat = r.toNat := Nat.eq_of_mul_eq_mul_right (Nat.zero_lt_of_lt h.2) (by omega)
  exact ⟨BitVec.eq_of_toNat_eq hr, BitVec.eq_of_toNat_eq hc⟩

/-- Reading a cell after one was written. -/
theorem CellIn.cell_withBit {M : MatrixReg} {r c r' c' : Shape} (hM : M.Wf) (h : CellIn M r c)
    (h' : CellIn M r' c') (b : Bool) :
    (M.withBit (r.toNat * M.cols.toNat + c.toNat) b).cell r'.toNat c'.toNat =
      if r' = r ∧ c' = c then b else M.cell r'.toNat c'.toNat := by
  have hlt : r.toNat * M.cols.toNat + c.toNat < 64 := h.index_lt.trans_le hM.area_le
  simp only [MatrixReg.cell, withBit_cols, getLsbD_withBit _ _ _ _ hlt, h.index_inj h']

/-- GETBIT of a cell inside a present register. -/
theorem exec_getbit_of_cellIn {s : State} {x : RegNo} {r c : Shape} (hp : (s.readMR x).present = true)
    (h : CellIn (s.readMR x) r c) : ∃ t, exec (.getbit x r c) s = .next t ∧
      WroteRes ((BitVec.ofBool ((s.readMR x).cell r.toNat c.toNat)).setWidth 8) s t := by
  have hi := (cellIndex_eq_some_iff _ _ _ _).2 ⟨h, rfl⟩
  simp only [exec, execGetbit, hp, hi, Bool.true_eq_false, if_false]
  exact complete_wroteRes s _

/-- A cell of a general register written, inside its matrix. -/
theorem updateCell_of_cellIn {s : State} {md : RegNo} {r c : Shape} (f : Bool → Bool) (hg : General md)
    (hp : (s.readMR md).present = true) (h : CellIn (s.readMR md) r c) :
    ∃ t, updateCell f md r c s = .next t ∧ WroteMatrix md ((s.readMR md).withBit
      (r.toNat * (s.readMR md).cols.toNat + c.toNat) (f ((s.readMR md).cell r.toNat c.toNat))) s t := by
  rcases updateCell_cases f md r c s with ⟨hc, -⟩ | ⟨-, hn, -⟩ | ⟨-, -, hn, -⟩ | ⟨-, -, -, he⟩
  · exact absurd hc (not_or.2 hg)
  · simp [hp] at hn
  · exact absurd h hn
  · exact he ▸ complete_wroteMatrix s _ hg

/-- SETBIT and CLRBIT are the shared cell operation with a constant. -/
theorem exec_setbit_or_clrbit (md : RegNo) (r c : Shape) (b : Bool) (s : State) :
    exec (if b then .setbit md r c else .clrbit md r c) s = updateCell (fun _ => b) md r c s := by
  cases b <;> rfl

/-- Settles O45: different cells of one register have different indices, and another register is not written. -/
theorem cellsAreSeparate : Obligations.CellsAreSeparate := by
  intro md x r c r' c' b s hs hg hp hin hp' hin'
  obtain ⟨t, ht, hmd, hothers, -⟩ := updateCell_of_cellIn (fun _ => b) hg hp hin
  have hx : (t.readMR x).present = true ∧ CellIn (t.readMR x) r' c' ∧ (t.readMR x).cell r'.toNat c'.toNat =
      if x = md ∧ r' = r ∧ c' = c then b else (s.readMR x).cell r'.toNat c'.toNat := by
    by_cases e : x = md
    · subst e
      rw [hmd]
      exact ⟨hp', hin', by simpa using hin.cell_withBit (hs x) hin' b⟩
    · rw [hothers x e]
      exact ⟨hp', hin', by simp [e]⟩
  obtain ⟨hpt, hint, hcell⟩ := hx
  obtain ⟨u, hu, hures, -⟩ := exec_getbit_of_cellIn hpt hint
  obtain ⟨v, hv, hvres, -⟩ := exec_getbit_of_cellIn hp' hin'
  refine ⟨t, u, v, (exec_setbit_or_clrbit md r c b s).trans ht, hu, hv, ?_⟩
  rw [hures, hvres, hcell]
  split
  · cases b <;> rfl
  · rfl

/-! ## Reset and the constants (10_state R26, R27, R29, R37) -/

theorem reset_readMR_of_general {i : RegNo} (h : General i) : State.reset.readMR i = MatrixReg.absent := by
  have hi := (general_iff_lt i).1 h
  simp [State.readMR, State.reset, hi]

/-- Settles O9, field by field. -/
theorem resetState : Obligations.ResetState :=
  ⟨fun _ h => reset_readMR_of_general h, rfl, rfl, rfl, rfl, rfl, rfl, by decide⟩

/-- G is `[I₄ | P]`, cell by cell (10_state R26, R28). -/
theorem genMatrix_cell : ∀ r < 4, ∀ c < 8,
    genMatrix.cell r c = if c < 4 then decide (r = c) else if r = c - 4 then false else true := by decide

/-- Ht is `[P ; I₄]`, cell by cell (10_state R27). -/
theorem parMatrix_cell : ∀ r < 8, ∀ c < 4,
    parMatrix.cell r c = if r < 4 then (if r = c then false else true) else decide (r - 4 = c) := by decide

/-- Settles O10: MR6 is G in every state, and G is evaluated cell by cell. -/
theorem generatorIsConstant : Obligations.GeneratorIsConstant :=
  ⟨State.readMR_six, fun s => s.readMR_six ▸ genMatrix_cell, by decide⟩

/-- Settles O11: MR7 is Ht in every state, and Ht is evaluated cell by cell. -/
theorem parityIsConstant : Obligations.ParityIsConstant :=
  ⟨State.readMR_seven, fun s => s.readMR_seven ▸ parMatrix_cell, by decide⟩

/-- The locator names a position for no syndrome but the rows of Ht (43_codec R162). -/
theorem slut_eq_some_iff : ∀ (x : Nibble) (p : BitVec 3),
    slut x = some p ↔ parMatrix.bits.extractLsb' (4 * p.toNat) 4 = x := by decide

/-- Settles O12, over all sixteen syndromes. -/
theorem locatorInvertsParityRows : Obligations.LocatorInvertsParityRows :=
  ⟨slut_eq_some_iff, by decide⟩

end Sys2Proof.Machine
end

section
/-! PROOFS. The statements about commands as transactions: a step runs the decoded command, and a command is a function
of the block's state that, but for three kinds, leaves the same block when it is issued again (spec 20_memory). -/

namespace Sys2Proof.Machine

/-- Settles O14: the word is decoded when its transaction is taken off the list. -/
theorem stepRunsDecodedCommand : Obligations.StepRunsDecodedCommand := by
  intro s w i rest hs hd
  simp only [step_of_cons hs, transact, issue, hd]

/-! ## The block's state and the port -/

theorem SameBlock.refl (s : State) : SameBlock s s := ⟨fun _ => rfl, rfl, rfl, rfl, rfl⟩

/-- The response word shows the block's state and nothing of the port. -/
theorem SameBlock.responseWord_eq {s t : State} (h : SameBlock s t) (f : FaultCode) :
    t.responseWord f = s.responseWord f := by
  obtain ⟨-, hres, hstat, hsticky, hcause⟩ := h
  simp only [State.responseWord, hres, hstat, hsticky, hcause]

theorem State.readMR_writeMR (s : State) (i j : RegNo) (M : MatrixReg) :
    (s.writeMR i M).readMR j = if j = i ∧ General i then M else s.readMR j := by
  by_cases hj : j = i
  · subst hj
    by_cases hg : General j
    · rw [if_pos ⟨rfl, hg⟩, readMR_writeMR_same s M hg]
    · have hw : s.writeMR j M = s := dif_neg (mt (general_iff_lt j).2 hg)
      rw [if_neg fun h => hg h.2, hw]
  · rw [if_neg fun h => hj h.1, readMR_writeMR_ne s M hj]

/-! ## How a command ends, apart from the state it ends in -/

/-- What a command makes of the block: the fault it takes, or the values it writes. -/
inductive Ending where
  | fault (f : FaultCode)
  | unchanged
  | matrix (md : RegNo) (M : MatrixReg)
  | value (v : Byte)
  | message (v : Byte) (x : Stat)
  | status (x : Stat)

/-- The fault code of the response. -/
def Ending.code : Ending → FaultCode
  | .fault f => f
  | _ => .none

/-- The writes to the block. -/
def Ending.write : Ending → State → State
  | .fault f, s => s.recordFault f
  | .unchanged, s => s
  | .matrix md M, s => s.writeMR md M
  | .value v, s => { s with res := v }
  | .message v x, s => { s with res := v, stat := x }
  | .status x, s => { s with stat := x }

/-- The state after the command's response. -/
def Ending.after (e : Ending) (s : State) : State := (e.write s).respond e.code

theorem Ending.write_congr (e : Ending) {s t : State} (h : SameBlock s t) : SameBlock (e.write s) (e.write t) := by
  obtain ⟨hmr, hres, hstat, hsticky, hcause⟩ := h
  cases e with
  | fault f => exact ⟨hmr, hres, hstat, rfl, by simp only [write, State.recordFault_fcause, hsticky, hcause]⟩
  | unchanged => exact ⟨hmr, hres, hstat, hsticky, hcause⟩
  | matrix md M =>
    exact ⟨fun j => by simp only [write, State.readMR_writeMR, hmr j], by simpa [write], by simpa [write],
      by simpa [write], by simpa [write]⟩
  | value v => exact ⟨hmr, rfl, hstat, hsticky, hcause⟩
  | message v x => exact ⟨hmr, rfl, rfl, hsticky, hcause⟩
  | status x => exact ⟨hmr, hres, rfl, hsticky, hcause⟩

/-- Ending in the same way a second time changes nothing: a value is written over itself, and a second fault is not the
first one recorded (60_exceptions R194). -/
theorem Ending.after_after (e : Ending) (s : State) : SameBlock (e.after s) (e.after (e.after s)) := by
  cases e with
  | matrix md M =>
    exact ⟨fun j => by simp only [after, write, State.readMR_respond, State.readMR_writeMR]; split <;> rfl,
      by simp [after, write], by simp [after, write], by simp [after, write], by simp [after, write]⟩
  | _ => exact SameBlock.refl _

/-- From `s` and from `t` the results end in the same way. -/
def EndAlike (s t : State) (r r' : Result) : Prop := ∃ e : Ending, r = .next (e.after s) ∧ r' = .next (e.after t)

section EndAlike

variable {s t : State}

theorem EndAlike.raise (f : FaultCode) : EndAlike s t (raise f s) (Machine.raise f t) := ⟨.fault f, rfl, rfl⟩

theorem EndAlike.complete : EndAlike s t (complete s) (Machine.complete t) := ⟨.unchanged, rfl, rfl⟩

theorem EndAlike.writeMR (md : RegNo) (M : MatrixReg) :
    EndAlike s t (Machine.complete (s.writeMR md M)) (Machine.complete (t.writeMR md M)) := ⟨.matrix md M, rfl, rfl⟩

theorem EndAlike.writeRes (v : Byte) :
    EndAlike s t (Machine.complete { s with res := v }) (Machine.complete { t with res := v }) :=
  ⟨.value v, rfl, rfl⟩

theorem EndAlike.ite {c : Prop} [Decidable c] {a b a' b' : Result} (ha : EndAlike s t a a') (hb : EndAlike s t b b') :
    EndAlike s t (if c then a else b) (if c then a' else b') := by
  split
  · exact ha
  · exact hb

/-- The shared cell operation is decided by its register. -/
theorem updateCell_endAlike (f : Bool → Bool) {md : RegNo} (r c : Shape) (h : t.readMR md = s.readMR md) :
    EndAlike s t (updateCell f md r c s) (updateCell f md r c t) := by
  simp only [updateCell, h]
  refine .ite (.raise _) (.ite .complete ?_)
  cases cellIndex (s.readMR md) r c with
  | none => exact .raise _
  | some i => exact .writeMR _ _

/-- How a command ends is decided by the matrix registers it reads (10_state R35). -/
theorem exec_endAlike (i : Instr) (h : ∀ j ∈ sources i, t.readMR j = s.readMR j) :
    EndAlike s t (exec i s) (exec i t) := by
  cases i with
  | nop => exact .complete
  | create md r c => exact .ite (.raise _) (.ite (.raise _) (.writeMR _ _))
  | free md => exact .ite (.raise _) (.writeMR _ _)
  | rows ma | cols ma | len ma | tobyte ma =>
    simp only [exec, execRows, execCols, execLen, execTobyte, h ma (by simp [sources])]
    exact .writeRes _
  | getbit ma r c =>
    simp only [exec, execGetbit, h ma (by simp [sources])]
    refine .ite (.writeRes _) ?_
    cases cellIndex (s.readMR ma) r c with
    | none => exact .raise _
    | some i => exact .writeRes _
  | setbit md r c | clrbit md r c | tglbit md r c | xorbit md r c b =>
    simp only [exec, execSetbit, execClrbit, execTglbit, execXorbit]
    exact updateCell_endAlike _ r c (h md (by simp [sources]))
  | frombyte md b n => exact .ite (.raise _) (.ite (.raise _) (.writeMR _ _))
  | mul md ma mb =>
    simp only [exec, execMul, h ma (by simp [sources]), h mb (by simp [sources])]
    exact .ite (.raise _) (.ite (.raise _) (.ite (.raise _) (.writeMR _ _)))
  | enc imm => exact .writeRes _
  | dec imm =>
    refine .ite ⟨.message _ _, rfl, rfl⟩ ?_
    cases slut (syndrome imm) with
    | none => exact ⟨.status _, rfl, rfl⟩
    | some p => exact ⟨.message _ _, rfl, rfl⟩

/-- So is how a command word ends. -/
theorem issue_endAlike (w : Word) (h : SameMatrices s t) : EndAlike s t (issue w s) (issue w t) := by
  unfold issue
  cases decode w with
  | ok i => exact exec_endAlike i fun j _ => h j
  | error why => exact .raise _

end EndAlike

/-- Settles O30: the ending is decided by the registers, and the writes and the response read the block alone. -/
theorem commandsReadTheBlockAlone : Obligations.CommandsReadTheBlockAlone := by
  intro w s₁ s₂ t₁ t₂ h h₁ h₂
  obtain ⟨e, he₁, he₂⟩ := issue_endAlike w h.1
  obtain rfl : t₁ = e.after s₁ := Host.Outcome.next.inj (h₁.symm.trans he₁)
  obtain rfl : t₂ = e.after s₂ := Host.Outcome.next.inj (h₂.symm.trans he₂)
  have hw := e.write_congr h
  exact ⟨hw, by simp [Ending.after, hw.responseWord_eq]⟩

/-! ## Issuing a command twice (20_memory R56) -/

/-- Two runs in a row that end alike: the second leaves the block as the first did. -/
theorem EndAlike.sameBlock {s t u : State} {r r' : Result} (h : EndAlike s t r r') (hr : r = .next t)
    (hr' : r' = .next u) : SameBlock t u := by
  obtain ⟨e, he, he'⟩ := h
  obtain rfl : t = e.after s := Host.Outcome.next.inj (hr.symm.trans he)
  obtain rfl : u = e.after (e.after s) := Host.Outcome.next.inj (hr'.symm.trans he')
  exact e.after_after s

/-- A command that does not read its destination finds its operands as they were. -/
theorem exec_twice_of_target_not_source {i : Instr} {s t u : State} (hi : ∀ j ∈ sources i, target i ≠ some j)
    (ht : exec i s = .next t) (hu : exec i t = .next u) : SameBlock t u :=
  (exec_endAlike i fun j hj => exec_readMR_of_not_target ht (hi j hj)).sameBlock ht hu

/-- An index past the storage bits names no bit. -/
theorem withBit_of_ge (M : MatrixReg) {i : Nat} (b : Bool) (hi : 64 ≤ i) : M.withBit i b = M := by
  have hz : 1#64 <<< i = 0#64 := BitVec.shiftLeft_eq_zero hi
  cases b with
  | false => simp only [MatrixReg.withBit, hz, BitVec.not_zero, BitVec.and_allOnes, Bool.false_eq_true, if_false]
  | true => simp only [MatrixReg.withBit, hz, BitVec.or_zero, if_true]

theorem withBit_withBit (M : MatrixReg) (i : Nat) (b : Bool) : (M.withBit i b).withBit i b = M.withBit i b := by
  cases b <;> simp [MatrixReg.withBit, BitVec.or_assoc, BitVec.and_assoc]

/-- Applying an idempotent function to a bit twice. -/
theorem withBit_twice {f : Bool → Bool} (hf : ∀ x, f (f x) = f x) (M : MatrixReg) (i : Nat) :
    (M.withBit i (f (M.bits.getLsbD i))).withBit i (f ((M.withBit i (f (M.bits.getLsbD i))).bits.getLsbD i)) =
      M.withBit i (f (M.bits.getLsbD i)) := by
  by_cases hi : i < 64
  · rw [getLsbD_withBit _ _ _ _ hi, if_pos rfl, hf, withBit_withBit]
  · simp only [withBit_of_ge M _ (not_lt.1 hi)]

/-- The shared cell operation with an idempotent function. -/
theorem updateCell_twice {f : Bool → Bool} (hf : ∀ x, f (f x) = f x) {md : RegNo} {r c : Shape} {s t u : State}
    (ht : updateCell f md r c s = .next t) (hu : updateCell f md r c t = .next u) : SameBlock t u := by
  have unread : t.readMR md = s.readMR md → SameBlock t u := fun h => (updateCell_endAlike f r c h).sameBlock ht hu
  rcases updateCell_cases f md r c s with ⟨-, he⟩ | ⟨-, -, he⟩ | ⟨-, -, -, he⟩ | ⟨hg, hp, hin, -⟩
  · obtain rfl := (raise_eq_next_iff _ s t).1 (he ▸ ht)
    exact unread rfl
  · obtain rfl := (complete_eq_next_iff s t).1 (he ▸ ht)
    exact unread rfl
  · obtain rfl := (raise_eq_next_iff _ s t).1 (he ▸ ht)
    exact unread rfl
  · obtain ⟨t', ht', hmd, -⟩ := updateCell_of_cellIn f hg hp hin
    obtain rfl : t = t' := Host.Outcome.next.inj (ht.symm.trans ht')
    obtain ⟨u', hu', hmd', hothers, hres, hstat, hrec, -⟩ :=
      updateCell_of_cellIn (s := t) (r := r) (c := c) f hg (by rw [hmd]; exact hp) (by rw [hmd]; exact hin)
    obtain rfl : u = u' := Host.Outcome.next.inj (hu.symm.trans hu')
    have hsame : u.readMR md = t.readMR md := by
      rw [hmd', hmd]; exact withBit_twice hf _ _
    refine ⟨fun j => ?_, hres, hstat, hrec⟩
    by_cases hj : j = md
    · exact hj ▸ hsame
    · exact hothers j hj

/-- Settles O29: SETBIT, CLRBIT and XORBIT with b = 0 apply an idempotent function to the cell; every other command but
the three kinds named does not read the register it writes. -/
theorem issuingTwiceIsIssuingOnce : Obligations.IssuingTwiceIsIssuingOnce := by
  intro i s t u hi ht hu
  cases i with
  | setbit md r c => exact updateCell_twice (f := fun _ => true) (fun _ => rfl) ht hu
  | clrbit md r c => exact updateCell_twice (f := fun _ => false) (fun _ => rfl) ht hu
  | tglbit md r c => cases hi
  | xorbit md r c b =>
    have bit_of_ne_one : ∀ b : BitVec 1, (b == 1) = false → b.getLsbD 0 = false := by decide
    have hb := bit_of_ne_one b hi
    exact updateCell_twice (f := fun x => x ^^ b.getLsbD 0) (fun x => by simp only [hb, Bool.xor_false]) ht hu
  | mul md ma mb =>
    simp only [mayDifferTwice, Bool.or_eq_false_iff, beq_eq_false_iff_ne] at hi
    exact exec_twice_of_target_not_source (by simpa [sources, target] using hi) ht hu
  | _ => exact exec_twice_of_target_not_source (by simp [sources, target]) ht hu

end Sys2Proof.Machine
end

section
/-! PROOFS. The statements about the encoding: the packed word and its fields, the decode table, decode and encode as
inverses, the words that are no command, the assembler, and the response to a command word (spec 30_encoding). -/

namespace Sys2Proof.Machine

/-! ## The packed word and its fields (30_encoding R71, R77) -/

/-- The fields stand side by side, the opcode lowest and RSV = 0 between MB and FI. -/
theorem packCommand_eq_append (op : BitVec 5) (md ma mb : RegNo) (fi fj : Shape) (imm8 : Byte) :
    packCommand op md ma mb fi fj imm8 = imm8 ++ fj ++ fi ++ 0#2 ++ mb ++ ma ++ md ++ op := by
  apply BitVec.eq_of_getLsbD_eq
  intro i hi
  rw [Laws.getLsbD_packCommand _ _ _ _ _ _ _ i hi]
  interval_cases i <;> simp only [BitVec.getLsbD_append] <;> simp

theorem toNat_append_eq_add {m n : Nat} (x : BitVec m) (y : BitVec n) :
    (x ++ y).toNat = x.toNat * 2 ^ n + y.toNat := by
  rw [BitVec.toNat_append, ← Nat.shiftLeft_add_eq_or_of_lt y.isLt, Nat.shiftLeft_eq]

theorem toNat_packCommand (op : BitVec 5) (md ma mb : RegNo) (fi fj : Shape) (imm8 : Byte) :
    (packCommand op md ma mb fi fj imm8).toNat = op.toNat + md.toNat * 2 ^ 5 + ma.toNat * 2 ^ 8 + mb.toNat * 2 ^ 11
      + fi.toNat * 2 ^ 16 + fj.toNat * 2 ^ 20 + imm8.toNat * 2 ^ 24 := by
  simp only [packCommand_eq_append, toNat_append_eq_add, BitVec.toNat_ofNat]
  omega

section Fields

variable {op : BitVec 5} {md ma mb : RegNo} {fi fj : Shape} {imm8 : Byte}

/-- The bits of a packed word at `start` are a field's when its number has that field's value there. -/
theorem extractLsb'_packCommand {len : Nat} (start : Nat) {x : BitVec len}
    (h : (op.toNat + md.toNat * 2 ^ 5 + ma.toNat * 2 ^ 8 + mb.toNat * 2 ^ 11 + fi.toNat * 2 ^ 16 + fj.toNat * 2 ^ 20
      + imm8.toNat * 2 ^ 24) / 2 ^ start % 2 ^ len = x.toNat) :
    (packCommand op md ma mb fi fj imm8).extractLsb' start len = x := by
  apply BitVec.eq_of_toNat_eq
  rw [BitVec.extractLsb'_toNat, Nat.shiftRight_eq_div_pow, toNat_packCommand, h]

@[simp] theorem fieldOP_packCommand : fieldOP (packCommand op md ma mb fi fj imm8) = op :=
  extractLsb'_packCommand 0 (by omega)

@[simp] theorem fieldMD_packCommand : fieldMD (packCommand op md ma mb fi fj imm8) = md :=
  extractLsb'_packCommand 5 (by omega)

@[simp] theorem fieldMA_packCommand : fieldMA (packCommand op md ma mb fi fj imm8) = ma :=
  extractLsb'_packCommand 8 (by omega)

@[simp] theorem fieldMB_packCommand : fieldMB (packCommand op md ma mb fi fj imm8) = mb :=
  extractLsb'_packCommand 11 (by omega)

@[simp] theorem rsv_packCommand : (packCommand op md ma mb fi fj imm8).extractLsb' 14 2 = 0 :=
  extractLsb'_packCommand 14 (by simp only [BitVec.ofNat_eq_ofNat, BitVec.toNat_ofNat]; omega)

@[simp] theorem fieldFI_packCommand : fieldFI (packCommand op md ma mb fi fj imm8) = fi :=
  extractLsb'_packCommand 16 (by omega)

@[simp] theorem fieldFJ_packCommand : fieldFJ (packCommand op md ma mb fi fj imm8) = fj :=
  extractLsb'_packCommand 20 (by omega)

@[simp] theorem fieldIMM8_packCommand : fieldIMM8 (packCommand op md ma mb fi fj imm8) = imm8 :=
  extractLsb'_packCommand 24 (by omega)

end Fields

/-- The bit operand is the low bit of IMM8 (30_encoding R72). -/
theorem fieldB_eq (w : Word) : fieldB w = (fieldIMM8 w).setWidth 1 := by
  apply BitVec.eq_of_toNat_eq
  simp only [fieldB, fieldIMM8, BitVec.toNat_setWidth, BitVec.extractLsb'_toNat, Nat.shiftRight_eq_div_pow]
  omega

/-- IMM8 with its high seven bits 0 is the bit operand, zero-extended. -/
theorem setWidth_fieldB {w : Word} (h : w.extractLsb' 25 7 = 0) : (fieldB w).setWidth 8 = fieldIMM8 w := by
  have h' := congrArg BitVec.toNat h
  apply BitVec.eq_of_toNat_eq
  simp only [fieldB, fieldIMM8, BitVec.toNat_setWidth, BitVec.extractLsb'_toNat, Nat.shiftRight_eq_div_pow,
    BitVec.ofNat_eq_ofNat, BitVec.toNat_ofNat] at h' ⊢
  omega

/-- Settles O3: the number of the packed word, and each field read back from it. -/
theorem packedCommandFields : Obligations.PackedCommandFields :=
  fun op md ma mb fi fj imm8 => ⟨toNat_packCommand op md ma mb fi fj imm8, by simp⟩

/-- A word is its fields (30_encoding R71). -/
theorem word_eq_iff_fields (v w : Word) : v = w ↔
    fieldOP v = fieldOP w ∧ v.extractLsb' 14 2 = w.extractLsb' 14 2 ∧ fieldMD v = fieldMD w ∧ fieldMA v = fieldMA w ∧
    fieldMB v = fieldMB w ∧ fieldFI v = fieldFI w ∧ fieldFJ v = fieldFJ w ∧ fieldIMM8 v = fieldIMM8 w := by
  refine ⟨fun h => by simp [h], fun ⟨hop, hrsv, hmd, hma, hmb, hfi, hfj, himm⟩ => ?_⟩
  apply BitVec.eq_of_toNat_eq
  simp only [fieldOP, fieldMD, fieldMA, fieldMB, fieldFI, fieldFJ, fieldIMM8, ← BitVec.toNat_inj,
    BitVec.extractLsb'_toNat, Nat.shiftRight_eq_div_pow] at hop hmd hma hmb hrsv hfi hfj himm
  omega

/-! ## The decode table (30_encoding R73, R76) -/

/-- A word is in a row when the row's mask leaves the pattern of every field. -/
theorem hits_iff_fields (r : EncRow) (w : Word) : r.hits w = true ↔
    fieldOP w &&& fieldOP r.mask = fieldOP r.pattern ∧
    w.extractLsb' 14 2 &&& r.mask.extractLsb' 14 2 = r.pattern.extractLsb' 14 2 ∧
    fieldMD w &&& fieldMD r.mask = fieldMD r.pattern ∧ fieldMA w &&& fieldMA r.mask = fieldMA r.pattern ∧
    fieldMB w &&& fieldMB r.mask = fieldMB r.pattern ∧
    fieldFI w &&& fieldFI r.mask = fieldFI r.pattern ∧ fieldFJ w &&& fieldFJ r.mask = fieldFJ r.pattern ∧
    fieldIMM8 w &&& fieldIMM8 r.mask = fieldIMM8 r.pattern := by
  simp only [EncRow.hits, beq_iff_eq, word_eq_iff_fields, fieldOP, fieldMD, fieldMA, fieldMB, fieldFI, fieldFJ,
    fieldIMM8, BitVec.extractLsb'_and]

/-- The mask of XORBIT leaves the low bit of IMM8 free (30_encoding R73). -/
theorem extractLsb'_and_not_one_eq_zero_iff (w : Word) :
    w.extractLsb' 24 8 &&& 0xFE#8 = 0#8 ↔ w.extractLsb' 25 7 = 0#7 := by
  have high : w.extractLsb' 25 7 = (w.extractLsb' 24 8).extractLsb' 1 7 := by
    apply BitVec.eq_of_toNat_eq
    simp only [BitVec.extractLsb'_toNat, Nat.shiftRight_eq_div_pow]
    omega
  have byte : ∀ b : Byte, b &&& 0xFE#8 = 0#8 ↔ b.extractLsb' 1 7 = 0#7 := by decide
  rw [high, byte]

theorem and_of_eq_allOnes {n : Nat} (x : BitVec n) {m : BitVec n} (h : m = BitVec.allOnes n) : x &&& m = x :=
  h ▸ BitVec.and_allOnes

theorem toNat_fieldOP_eq_iff (w : Word) {k : Nat} (hk : k < 32) :
    (fieldOP w).toNat = k ↔ fieldOP w = BitVec.ofNat 5 k := by
  rw [← BitVec.toNat_inj, BitVec.toNat_ofNat, Nat.mod_eq_of_lt hk]

/-- Row `k` of the table holds the words with opcode `k` whose RSV and unused fields are 0 (30_encoding R73): its mask is
all ones in OP, RSV and the unused fields, and 0 in the used ones. -/
theorem encRows_hits_iff (k : Fin encRows.length) (w : Word) :
    encRows[k].hits w = true ↔ (fieldOP w).toNat = k ∧ UnusedFieldsZero k w := by
  rw [hits_iff_fields, toNat_fieldOP_eq_iff w (k.isLt.trans (by decide))]
  fin_cases k <;>
    simp [encRows, UnusedFieldsZero, fieldOP, fieldMD, fieldMA, fieldMB, fieldFI, fieldFJ, fieldIMM8,
      and_of_eq_allOnes, extractLsb'_and_not_one_eq_zero_iff]

/-- Settles O5: the words of a row have that row's opcode. -/
theorem decodeRowsDisjoint : Obligations.DecodeRowsDisjoint := by
  refine List.pairwise_iff_getElem.2 fun i j hi hj hij w ⟨hitI, hitJ⟩ => ?_
  have hi' : _ = i := ((encRows_hits_iff ⟨i, hi⟩ w).1 hitI).1
  have hj' : _ = j := ((encRows_hits_iff ⟨j, hj⟩ w).1 hitJ).1
  omega

/-! ## The decoder (30_encoding R74, R76) -/

/-- The decoder takes the row that the word is in. -/
theorem decode_of_hits {k : Fin encRows.length} {w : Word} (h : encRows[k].hits w = true) :
    decode w = .ok (encRows[k].build w) := by
  have found : encRows.find? (·.hits w) = some encRows[k] := by
    refine List.find?_eq_some_iff_getElem.2 ⟨h, k, k.isLt, rfl, fun j hj => ?_⟩
    have earlier := List.pairwise_iff_getElem.1 decodeRowsDisjoint j k (hj.trans k.isLt) k.isLt hj w
    simpa using fun hit => earlier ⟨hit, h⟩
  simp only [decode, found]

/-- The word is a command: its opcode is assigned, and RSV and the fields its opcode does not use are 0. -/
abbrev IsCommand (w : Word) : Prop := (fieldOP w).toNat < 16 ∧ UnusedFieldsZero (fieldOP w).toNat w

/-- A command is decoded by the row of its opcode. -/
theorem decode_of_isCommand {w : Word} (h : IsCommand w) :
    decode w = .ok (encRows[(⟨(fieldOP w).toNat, h.1⟩ : Fin encRows.length)].build w) :=
  decode_of_hits ((encRows_hits_iff ⟨_, h.1⟩ w).2 ⟨rfl, h.2⟩)

/-- Any other word is rejected, by its opcode when that is reserved (30_encoding R74). -/
theorem decode_of_not_isCommand {w : Word} (h : ¬ IsCommand w) :
    decode w = .error (if (fieldOP w).toNat < 16 then .unusedFieldSet else .reservedOpcode) := by
  have none_hit : encRows.find? (·.hits w) = none := by
    refine List.find?_eq_none.2 fun r hr hit => h ?_
    obtain ⟨k, hk, rfl⟩ := List.mem_iff_getElem.1 hr
    obtain ⟨rfl, hz⟩ := (encRows_hits_iff ⟨k, hk⟩ w).1 hit
    exact ⟨hk, hz⟩
  simp only [decode, none_hit]

/-! ## Decode and encode are inverse (30_encoding R76, R77) -/

/-- A command whose word is in row `k`, and which that row builds from the word, is decoded again. -/
theorem decode_encode_of_row {i : Instr} (k : Fin encRows.length)
    (hrow : encode i &&& encRows[k].mask = encRows[k].pattern) (hbuild : encRows[k].build (encode i) = i) :
    decode (encode i) = .ok i :=
  (decode_of_hits (beq_iff_eq.2 hrow)).trans (congrArg _ hbuild)

/-- Settles O1, command by command: its word is in its row, and the row reads back the fields that were packed. -/
theorem decodeOfEncode : Obligations.DecodeOfEncode := by
  intro i
  cases i with
  | nop => exact decode_encode_of_row ⟨0, by decide⟩ Laws.EncodesInRow.nop rfl
  | create md r c =>
    exact decode_encode_of_row ⟨1, by decide⟩ (Laws.EncodesInRow.create md r c) (by simp [encRows, encode])
  | free md => exact decode_encode_of_row ⟨2, by decide⟩ (Laws.EncodesInRow.free md) (by simp [encRows, encode])
  | rows ma => exact decode_encode_of_row ⟨3, by decide⟩ (Laws.EncodesInRow.rows ma) (by simp [encRows, encode])
  | cols ma => exact decode_encode_of_row ⟨4, by decide⟩ (Laws.EncodesInRow.cols ma) (by simp [encRows, encode])
  | len ma => exact decode_encode_of_row ⟨5, by decide⟩ (Laws.EncodesInRow.len ma) (by simp [encRows, encode])
  | getbit ma r c =>
    exact decode_encode_of_row ⟨6, by decide⟩ (Laws.EncodesInRow.getbit ma r c) (by simp [encRows, encode])
  | setbit md r c =>
    exact decode_encode_of_row ⟨7, by decide⟩ (Laws.EncodesInRow.setbit md r c) (by simp [encRows, encode])
  | clrbit md r c =>
    exact decode_encode_of_row ⟨8, by decide⟩ (Laws.EncodesInRow.clrbit md r c) (by simp [encRows, encode])
  | tglbit md r c =>
    exact decode_encode_of_row ⟨9, by decide⟩ (Laws.EncodesInRow.tglbit md r c) (by simp [encRows, encode])
  | xorbit md r c b =>
    exact decode_encode_of_row ⟨10, by decide⟩ (Laws.EncodesInRow.xorbit md r c b) (by simp [encRows, encode, fieldB_eq])
  | frombyte md b n =>
    exact decode_encode_of_row ⟨11, by decide⟩ (Laws.EncodesInRow.frombyte md b n) (by simp [encRows, encode])
  | tobyte ma => exact decode_encode_of_row ⟨12, by decide⟩ (Laws.EncodesInRow.tobyte ma) (by simp [encRows, encode])
  | mul md ma mb =>
    exact decode_encode_of_row ⟨13, by decide⟩ (Laws.EncodesInRow.mul md ma mb) (by simp [encRows, encode])
  | enc imm => exact decode_encode_of_row ⟨14, by decide⟩ (Laws.EncodesInRow.enc imm) (by simp [encRows, encode])
  | dec imm => exact decode_encode_of_row ⟨15, by decide⟩ (Laws.EncodesInRow.dec imm) (by simp [encRows, encode])

/-- Encoding what a row builds from a word of it gives the word: the used fields are packed back and the others are 0. -/
theorem encode_build {k : Fin encRows.length} {w : Word} (hop : (fieldOP w).toNat = k) (hz : UnusedFieldsZero k w) :
    encode (encRows[k].build w) = w := by
  rw [toNat_fieldOP_eq_iff w (k.isLt.trans (by decide))] at hop
  rw [word_eq_iff_fields]
  fin_cases k <;> simp_all [encode, encRows, UnusedFieldsZero, setWidth_fieldB]

/-- Settles O2: only a command decodes, by the row of its opcode. -/
theorem encodeOfDecode : Obligations.EncodeOfDecode := by
  intro w i hd
  by_cases h : IsCommand w
  · rw [decode_of_isCommand h, Except.ok.injEq] at hd
    rw [← hd, encode_build rfl h.2]
  · rw [decode_of_not_isCommand h] at hd
    cases hd

/-! ## Words that are no command (30_encoding R73, R74; 60_exceptions R192) -/

/-- Issuing a word that is no command ends in IllegalCommand. -/
theorem issue_faulted_of_decode_error {w : Word} {why : DecodeReject} (h : decode w = .error why) (s : State) :
    ∃ t, issue w s = .next t ∧ Faulted .illegalCommand s t := by
  simp only [issue, h]
  exact raise_faulted .illegalCommand s

/-- Settles O4: the decoder's two answers, and the fault of a rejected word. -/
theorem illegalWordsExactly : Obligations.IllegalWordsExactly := by
  intro w
  refine ⟨fun hop => ?_, fun hop hz => ⟨_, decode_of_isCommand ⟨hop, hz⟩⟩, fun hop hz => ?_⟩
  · have hd : decode w = .error .reservedOpcode := by
      rw [decode_of_not_isCommand fun h => absurd h.1 (by omega), if_neg (by omega)]
    exact ⟨hd, issue_faulted_of_decode_error hd⟩
  · have hd : decode w = .error .unusedFieldSet := by
      rw [decode_of_not_isCommand fun h => hz h.2, if_pos hop]
    exact ⟨hd, issue_faulted_of_decode_error hd⟩

/-- Settles O15: the step takes the transaction off the list and issues the word. -/
theorem stepIllegalCommand : Obligations.StepIllegalCommand := by
  intro s w why rest hs hd
  rw [step_of_cons hs]
  exact issue_faulted_of_decode_error hd _

/-- Settles O6, by running the decoder. -/
theorem sampleWordsDecode : Obligations.SampleWordsDecode := by
  unfold Obligations.SampleWordsDecode
  decide

/-! ## The assembler (30_encoding R79, R80) -/

/-- Settles O7: a form that fits is encoded, and its word decodes as the word of any command does. -/
theorem assembleOneWord : Obligations.AssembleOneWord :=
  fun f => ⟨fun h => ⟨encode (instrOfForm f), by simp [assemble, h], decodeOfEncode _⟩, fun h => by simp [assemble, h]⟩

/-- Settles O8, by running the assembler. -/
theorem sampleLinesAssemble : Obligations.SampleLinesAssemble := by
  unfold Obligations.SampleLinesAssemble
  decide

/-! ## The response to a command word (30_encoding R78) -/

/-- Settles O22: a command word ends in a fault, which is recorded, or completes with the record as it was. -/
theorem responseWordFields : Obligations.ResponseWordFields := by
  intro w s
  rcases issue_cases w s with ⟨f, hf, hill, hi⟩ | ⟨⟨i, hd⟩, u, hi, hsticky, hcause, hev, hrsp, -⟩
  · obtain ⟨t, ht, -, -, -, hsticky, -, hans⟩ := raise_faulted f s
    exact ⟨t, f, hi.trans ht, hans, hill, fun h => absurd h hf, fun _ => hsticky⟩
  · refine ⟨u.respond .none, .none, hi, answered_respond .none hev hrsp, fun ⟨why, he⟩ => ?_, fun _ => ?_, fun h => ?_⟩
    · rw [hd] at he
      cases he
    · exact ⟨hsticky, hcause⟩
    · exact absurd rfl h

end Sys2Proof.Machine
end

section
/-! PROOFS. The statements about the storage and shape commands and the absence policy (spec 40_storage R100 to R105). -/

namespace Sys2Proof.Machine

/-! ## Constant destinations (20_memory R52) -/

/-- Every command with a destination refuses MR6 and MR7 before any other check (60_exceptions R195). -/
theorem exec_faulted_of_constant_target {i : Instr} {md : RegNo} (ht : target i = some md) (hc : Constant md)
    (s : State) : ∃ t, exec i s = .next t ∧ Faulted .constantWrite s t := by
  have hmd : isConst md = true := (isConst_eq_true_iff md).2 hc
  have he : exec i s = raise .constantWrite s := by
    cases i with
    | create | free | setbit | clrbit | tglbit | xorbit | frombyte | mul => cases ht; exact if_pos hmd
    | nop | rows | cols | len | getbit | tobyte | enc | dec => cases ht
  exact he ▸ raise_faulted .constantWrite s

/-! ## Absent registers (10_state R23; 41_bit_access R120) -/

/-- A well-formed register that is not present is the absent register. -/
theorem MatrixReg.Wf.eq_absent {M : MatrixReg} (h : M.Wf) (hp : M.present = false) : M = absent := by
  obtain ⟨-, -, habs, -⟩ := h
  obtain ⟨hr, hc, hb⟩ := habs hp
  cases M
  simp_all [absent]

/-- MR6 and MR7 are present, so an absent register is a general one. -/
theorem general_of_not_present {s : State} {i : RegNo} (hp : (s.readMR i).present = false) : General i := by
  constructor <;> rintro rfl <;> cases hp

/-- A command that reads a value out of a register writes RES; an absent register gives what the absent record gives. -/
theorem complete_wroteRes_of_readMR (value : MatrixReg → Byte) (habs : value MatrixReg.absent = 0) (i : RegNo)
    (s : State) : ∃ t, complete { s with res := value (s.readMR i) } = .next t ∧ WroteRes (value (s.readMR i)) s t ∧
      (s.StorageInv → (s.readMR i).present = false → t.res = 0) := by
  obtain ⟨t, ht, hw⟩ := complete_wroteRes s (value (s.readMR i))
  exact ⟨t, ht, hw, fun hs hp => by rw [hw.1, (hs i).eq_absent hp, habs]⟩

/-- The shared cell operation does nothing on an absent register. -/
theorem updateCell_unchanged_of_not_present (f : Bool → Bool) {s : State} {md : RegNo} (r c : Shape)
    (hp : (s.readMR md).present = false) : ∃ t, updateCell f md r c s = .next t ∧ Unchanged s t := by
  have he : updateCell f md r c s = complete s := by
    simp [updateCell, (general_of_not_present hp).isConst_eq, hp]
  exact he ▸ complete_unchanged s

theorem degenerate_eq_true_iff (M : MatrixReg) : degenerate M = true ↔ Degenerate M := by
  simp [degenerate, Degenerate, or_assoc]

/-- MUL refuses a degenerate operand on either side (42_convert_multiply R142). -/
theorem exec_mul_faulted_of_degenerate {s : State} {md ma mb : RegNo} (hg : General md)
    (h : Degenerate (s.readMR ma) ∨ Degenerate (s.readMR mb)) :
    ∃ t, exec (.mul md ma mb) s = .next t ∧ Faulted .degenerateOperand s t := by
  have hd : (degenerate (s.readMR ma) || degenerate (s.readMR mb)) = true := by
    rwa [Bool.or_eq_true, degenerate_eq_true_iff, degenerate_eq_true_iff]
  have he : exec (.mul md ma mb) s = raise .degenerateOperand s := by
    simp only [exec, execMul, hg.isConst_eq, hd, Bool.false_eq_true, if_false, if_true]
  exact he ▸ raise_faulted .degenerateOperand s

/-- Every command on an absent register follows the absence policy. -/
theorem followsAbsence_of_readMR_eq_absent {i : RegNo} {s : State} (h : s.readMR i = MatrixReg.absent) :
    FollowsAbsence i s := by
  have hp : (s.readMR i).present = false := by rw [h]; rfl
  refine ⟨fun c hc => ?_, fun r c => ?_, fun r c b k hk => ?_, fun md j hg k hk => ?_⟩
  · have he : exec c s = complete { s with res := 0 } := by
      simp only [List.mem_cons, List.not_mem_nil, or_false] at hc
      rcases hc with rfl | rfl | rfl | rfl
      · simp only [exec, execRows, h]; rfl
      · simp only [exec, execCols, h]; rfl
      · simp only [exec, execLen, h]; rfl
      · simp only [exec, execTobyte, h]; rfl
    exact he ▸ complete_wroteRes s 0
  · have he : exec (.getbit i r c) s = complete { s with res := 0 } := if_pos hp
    exact he ▸ complete_wroteRes s 0
  · simp only [List.mem_cons, List.not_mem_nil, or_false] at hk
    rcases hk with rfl | rfl | rfl | rfl
    · exact updateCell_unchanged_of_not_present (fun _ => true) r c hp
    · exact updateCell_unchanged_of_not_present (fun _ => false) r c hp
    · exact updateCell_unchanged_of_not_present (fun x => x ^^ true) r c hp
    · exact updateCell_unchanged_of_not_present (fun x => x ^^ b.getLsbD 0) r c hp
  · simp only [List.mem_cons, List.not_mem_nil, or_false] at hk
    rcases hk with rfl | rfl
    · exact exec_mul_faulted_of_degenerate hg (.inl (.inl hp))
    · exact exec_mul_faulted_of_degenerate hg (.inr (.inl hp))

/-- Settles O35: the record of the hypothesis is the absent register. -/
theorem absencePolicy : Obligations.AbsencePolicy :=
  fun _ _ h => followsAbsence_of_readMR_eq_absent h

/-! ## CREATE and FREE -/

/-- CREATE within the shape limits (40_storage R101). -/
theorem exec_create_wroteMatrix {md : RegNo} {rows cols : Shape} (hg : General md) (hr : rows.toNat ≤ 8)
    (hc : cols.toNat ≤ 8) (s : State) : ∃ t, exec (.create md rows cols) s = .next t ∧
      WroteMatrix md { present := true, rows := rows, cols := cols, bits := 0 } s t := by
  have hfit : ¬ (Config.maxDim < rows.toNat ∨ Config.maxDim < cols.toNat) := by
    simp only [Config.maxDim]; omega
  simp only [exec, execCreate, hg.isConst_eq, hfit, Bool.false_eq_true, if_false]
  exact complete_wroteMatrix s _ hg

/-- CREATE with a dimension above the limit (40_storage R101). -/
theorem exec_create_faulted_of_large {md : RegNo} {rows cols : Shape} (hg : General md)
    (h : 8 < rows.toNat ∨ 8 < cols.toNat) (s : State) :
    ∃ t, exec (.create md rows cols) s = .next t ∧ Faulted .allocationError s t := by
  have hlarge : Config.maxDim < rows.toNat ∨ Config.maxDim < cols.toNat := h
  simp only [exec, execCreate, hg.isConst_eq, hlarge, Bool.false_eq_true, if_false, if_true]
  exact raise_faulted .allocationError s

/-- Settles O33: the destination check, then the shape check. -/
theorem createMakesZeroMatrix : Obligations.CreateMakesZeroMatrix :=
  ⟨by decide, by decide, fun md rows cols s =>
    ⟨⟨Laws.EncodesInRow.create md rows cols, decodeOfEncode _⟩,
      fun hg hr hc => exec_create_wroteMatrix hg hr hc s,
      fun hc => exec_faulted_of_constant_target rfl hc s,
      fun hg h => exec_create_faulted_of_large hg h s⟩⟩

/-- FREE of a general register (40_storage R102). -/
theorem exec_free_wroteMatrix {md : RegNo} (hg : General md) (s : State) :
    ∃ t, exec (.free md) s = .next t ∧ WroteMatrix md MatrixReg.absent s t := by
  simp only [exec, execFree, hg.isConst_eq, Bool.false_eq_true, if_false]
  exact complete_wroteMatrix s _ hg

/-- Settles O34: the register reads absent in the state that FREE leaves, and the absence policy holds in any such
state. -/
theorem freeMakesAbsent : Obligations.FreeMakesAbsent := by
  refine ⟨by decide, by decide, fun md s => ⟨⟨Laws.EncodesInRow.free md, decodeOfEncode _⟩, fun hg => ?_,
    fun hc => exec_faulted_of_constant_target rfl hc s⟩⟩
  obtain ⟨t, ht, hw⟩ := exec_free_wroteMatrix hg s
  exact ⟨t, ht, hw, followsAbsence_of_readMR_eq_absent hw.1⟩

/-! ## ROWS, COLS and LEN -/

/-- Settles O36: the row count of the absent record is 0; G and Ht are evaluated. -/
theorem rowsReadsRowCount : Obligations.RowsReadsRowCount :=
  ⟨by decide, fun ma s => ⟨⟨Laws.EncodesInRow.rows ma, decodeOfEncode _⟩,
      complete_wroteRes_of_readMR (fun M => M.rows.setWidth 8) rfl ma s⟩,
    fun _ => ⟨⟨_, rfl, rfl⟩, ⟨_, rfl, rfl⟩⟩⟩

/-- Settles O37: the column count of the absent record is 0; G and Ht are evaluated. -/
theorem colsReadsColumnCount : Obligations.ColsReadsColumnCount :=
  ⟨by decide, fun ma s => ⟨⟨Laws.EncodesInRow.cols ma, decodeOfEncode _⟩,
      complete_wroteRes_of_readMR (fun M => M.cols.setWidth 8) rfl ma s⟩,
    fun _ => ⟨⟨_, rfl, rfl⟩, ⟨_, rfl, rfl⟩⟩⟩

/-- The number of cells of a well-formed register fits RES (40_storage R105). -/
theorem MatrixReg.Wf.toNat_ofNat_area {M : MatrixReg} (h : M.Wf) : (BitVec.ofNat 8 M.area).toNat = M.area := by
  have h64 := h.area_le
  rw [BitVec.toNat_ofNat, Nat.mod_eq_of_lt (by omega)]

/-- Settles O38: the product is at most 64 by the shape limits, so its eight low bits are all of it. -/
theorem lenReadsCellCount : Obligations.LenReadsCellCount := by
  refine ⟨by decide, fun ma s => ⟨⟨Laws.EncodesInRow.len ma, decodeOfEncode _⟩, ?_⟩, fun s => ⟨_, rfl, rfl⟩⟩
  obtain ⟨t, ht, hw, habs⟩ := complete_wroteRes_of_readMR (fun M => BitVec.ofNat 8 M.area) rfl ma s
  refine ⟨t, ht, hw, fun hs => ?_⟩
  have hres : t.res.toNat = (s.readMR ma).area := by rw [hw.1, (hs ma).toNat_ofNat_area]
  exact ⟨hres, hres.trans_le (hs ma).area_le, habs hs⟩

/-! ## NOP -/

/-- The one command with opcode 0 is the word 0 (40_storage R100). -/
theorem eq_zero_of_unusedFieldsZero {w : Word} (hop : fieldOP w = 0) (hz : UnusedFieldsZero 0 w) : w = 0 := by
  have hw : encode .nop = w := encode_build (k := ⟨0, by decide⟩) (by simp [hop]) hz
  exact hw.symm.trans (by decide)

/-- Settles O32: a word with opcode 0 whose unused fields are not all 0 is rejected (30_encoding R73). -/
theorem nopOnlyAnswers : Obligations.NopOnlyAnswers := by
  refine ⟨⟨Laws.EncodesInRow.nop, decodeOfEncode _⟩, complete_unchanged, fun w hop hne => ?_⟩
  obtain ⟨-, -, hrejected⟩ := illegalWordsExactly w
  rw [hop] at hrejected
  exact hrejected (by decide) fun hz => hne (eq_zero_of_unusedFieldsZero hop hz)

end Sys2Proof.Machine
end

section
/-! PROOFS. The statements about the cell access commands (spec 41_bit_access R120 to R125). -/

namespace Sys2Proof.Machine

/-! ## The cell check (41_bit_access R120) -/

theorem not_cellIn_iff (M : MatrixReg) (r c : Shape) : ¬ CellIn M r c ↔ M.rows ≤ r ∨ M.cols ≤ c := by
  rw [not_and_or, not_lt, not_lt, BitVec.le_def, BitVec.le_def]

/-- The shared cell operation outside a present general register. -/
theorem updateCell_faulted_of_not_cellIn (f : Bool → Bool) {s : State} {md : RegNo} {r c : Shape} (hg : General md)
    (hp : (s.readMR md).present = true) (hout : ¬ CellIn (s.readMR md) r c) :
    ∃ t, updateCell f md r c s = .next t ∧ Faulted .indexOutOfRange s t := by
  have hi := (cellIndex_eq_none_iff _ _ _).2 hout
  have he : updateCell f md r c s = raise .indexOutOfRange s := by
    simp only [updateCell, hg.isConst_eq, hp, hi, Bool.false_eq_true, Bool.true_eq_false, if_false]
  exact he ▸ raise_faulted .indexOutOfRange s

/-- SETBIT, CLRBIT, TGLBIT and XORBIT are the shared cell operation, each with its own function. -/
theorem exists_exec_eq_updateCell {k : Instr} {x : RegNo} {r c : Shape} {b : BitVec 1}
    (hk : k ∈ [Instr.setbit x r c, .clrbit x r c, .tglbit x r c, .xorbit x r c b]) :
    ∃ f, ∀ s, exec k s = updateCell f x r c s := by
  simp only [List.mem_cons, List.not_mem_nil, or_false] at hk
  rcases hk with rfl | rfl | rfl | rfl
  · exact ⟨fun _ => true, fun _ => rfl⟩
  · exact ⟨fun _ => false, fun _ => rfl⟩
  · exact ⟨fun x => x ^^ true, fun _ => rfl⟩
  · exact ⟨fun x => x ^^ b.getLsbD 0, fun _ => rfl⟩

/-! ## GETBIT -/

theorem exec_getbit_of_not_present {s : State} {x : RegNo} (r c : Shape) (hp : (s.readMR x).present = false) :
    ∃ t, exec (.getbit x r c) s = .next t ∧ WroteRes 0 s t := by
  have he : exec (.getbit x r c) s = complete { s with res := 0 } := if_pos hp
  exact he ▸ complete_wroteRes s 0

theorem exec_getbit_of_not_cellIn {s : State} {x : RegNo} {r c : Shape} (hp : (s.readMR x).present = true)
    (hout : ¬ CellIn (s.readMR x) r c) :
    ∃ t, exec (.getbit x r c) s = .next t ∧ Faulted .indexOutOfRange s t := by
  have hi := (cellIndex_eq_none_iff _ _ _).2 hout
  have he : exec (.getbit x r c) s = raise .indexOutOfRange s := by
    simp only [exec, execGetbit, hp, hi, Bool.true_eq_false, if_false]
  exact he ▸ raise_faulted .indexOutOfRange s

theorem setWidth_ofBool_eq_ite (b : Bool) : (BitVec.ofBool b).setWidth 8 = if b = true then 1 else 0 := by
  cases b <;> rfl

/-- Settles O39: the three cases of the cell check, for GETBIT and for the shared operation of the other four. -/
theorem cellCheckAndAbsence : Obligations.CellCheckAndAbsence := by
  intro x r c b s
  refine ⟨fun hp => ⟨exec_getbit_of_not_present r c hp, fun _ k hk => ?_⟩, fun hp hout => ?_, fun hp hin => ?_⟩
  · obtain ⟨f, he⟩ := exists_exec_eq_updateCell hk
    exact he s ▸ updateCell_unchanged_of_not_present f r c hp
  · rw [← not_cellIn_iff] at hout
    refine ⟨exec_getbit_of_not_cellIn hp hout, fun hg k hk => ?_⟩
    obtain ⟨f, he⟩ := exists_exec_eq_updateCell hk
    exact he s ▸ updateCell_faulted_of_not_cellIn f hg hp hout
  · rw [← not_cellIn_iff, not_not] at hin
    refine ⟨(cellIndex_eq_some_iff _ _ _ _).2 ⟨hin, rfl⟩, fun k hk hwritable => ?_⟩
    rcases List.mem_cons.1 hk with rfl | hk
    · obtain ⟨t, ht, -, -, -, -, hanswer⟩ := exec_getbit_of_cellIn hp hin
      exact ⟨t, ht, hanswer⟩
    · have hg : General x := hwritable.resolve_left (by rintro rfl; simp at hk)
      obtain ⟨f, he⟩ := exists_exec_eq_updateCell hk
      obtain ⟨t, ht, -, -, -, -, -, hanswer⟩ := updateCell_of_cellIn f hg hp hin
      exact ⟨t, (he s).trans ht, hanswer⟩

/-- Settles O40: the value is the cell's bit, widened to RES. -/
theorem getbitReadsCell : Obligations.GetbitReadsCell := by
  refine ⟨by decide, fun s => ?_, fun ma r c s => ⟨⟨Laws.EncodesInRow.getbit ma r c, decodeOfEncode _⟩,
    exec_getbit_of_not_present r c, exec_getbit_of_not_cellIn, fun hp hin => ?_⟩⟩
  · have hin : CellIn genMatrix 0 5 := by decide
    have hcell : genMatrix.cell 0 5 = true := by decide
    obtain ⟨t, ht, hres, -⟩ := exec_getbit_of_cellIn (s := s) (x := 6) rfl hin
    exact ⟨t, ht, hres.trans (congrArg (fun b => (BitVec.ofBool b).setWidth 8) hcell)⟩
  · rw [← setWidth_ofBool_eq_ite]
    exact exec_getbit_of_cellIn hp hin

/-! ## SETBIT, CLRBIT, TGLBIT and XORBIT -/

/-- Writing the record with one bit changed is writing that cell, where its index names a storage bit. -/
theorem WroteMatrix.wroteCell {s t : State} {md : RegNo} {r c : Shape} {b : Bool}
    (h : WroteMatrix md ((s.readMR md).withBit (r.toNat * (s.readMR md).cols.toNat + c.toNat) b) s t)
    (hi : r.toNat * (s.readMR md).cols.toNat + c.toNat < 64) : WroteCell md r c b s t := by
  obtain ⟨hmd, hframe⟩ := h
  exact ⟨by rw [hmd, withBit_present], by rw [hmd, withBit_rows], by rw [hmd, withBit_cols],
    fun k => by rw [hmd, getLsbD_withBit _ _ _ _ hi], hframe⟩

/-- The shared cell operation inside a present general register. -/
theorem updateCell_wroteCell (f : Bool → Bool) {s : State} {md : RegNo} {r c : Shape} (hg : General md)
    (hp : (s.readMR md).present = true) (hin : CellIn (s.readMR md) r c)
    (hi : r.toNat * (s.readMR md).cols.toNat + c.toNat < 64) :
    ∃ t, updateCell f md r c s = .next t ∧ WroteCell md r c (f ((s.readMR md).cell r.toNat c.toNat)) s t := by
  obtain ⟨t, ht, hw⟩ := updateCell_of_cellIn f hg hp hin
  exact ⟨t, ht, hw.wroteCell hi⟩

/-- The course that the four commands share: the three ways a check ends them, in the order of 60_exceptions R195, and
the cell written. -/
theorem updateCell_course (f : Bool → Bool) (md : RegNo) (r c : Shape) {s : State} (hs : s.StorageInv) :
    (Constant md → ∃ t, updateCell f md r c s = .next t ∧ Faulted .constantWrite s t) ∧
    (General md → (s.readMR md).present = false → ∃ t, updateCell f md r c s = .next t ∧ Unchanged s t) ∧
    (General md → (s.readMR md).present = true → ¬ CellIn (s.readMR md) r c →
      ∃ t, updateCell f md r c s = .next t ∧ Faulted .indexOutOfRange s t) ∧
    (General md → (s.readMR md).present = true → CellIn (s.readMR md) r c →
      ∃ t, updateCell f md r c s = .next t ∧ WroteCell md r c (f ((s.readMR md).cell r.toNat c.toNat)) s t) := by
  refine ⟨fun hc => ?_, fun _ => updateCell_unchanged_of_not_present f r c, updateCell_faulted_of_not_cellIn f,
    fun hg hp hin => updateCell_wroteCell f hg hp hin (hin.index_lt.trans_le (hs md).area_le)⟩
  have he : updateCell f md r c s = raise .constantWrite s := if_pos ((isConst_eq_true_iff md).2 hc)
  exact he ▸ raise_faulted .constantWrite s

/-- Settles O41: the shared course with the constant 1. -/
theorem setbitSetsCell : Obligations.SetbitSetsCell :=
  ⟨by decide, fun md r c _ hs => ⟨⟨Laws.EncodesInRow.setbit md r c, decodeOfEncode _⟩,
    updateCell_course (fun _ => true) md r c hs⟩⟩

/-- Settles O42: the shared course with the constant 0. -/
theorem clrbitClearsCell : Obligations.ClrbitClearsCell :=
  ⟨by decide, fun md r c _ hs => ⟨⟨Laws.EncodesInRow.clrbit md r c, decodeOfEncode _⟩,
    updateCell_course (fun _ => false) md r c hs⟩⟩

theorem exec_xorbit_eq_updateCell (md : RegNo) (r c : Shape) (b : BitVec 1) (s : State) :
    exec (.xorbit md r c b) s = updateCell (fun x => x ^^ decide (b = 1)) md r c s := by
  have hb : ∀ b : BitVec 1, b.getLsbD 0 = decide (b = 1) := by decide
  simp only [exec, execXorbit, hb]

/-- Settles O44: the shared course with the sum over GF(2). -/
theorem xorbitAddsIntoCell : Obligations.XorbitAddsIntoCell := by
  refine ⟨by decide, fun md r c b s hs => ⟨⟨Laws.EncodesInRow.xorbit md r c b, decodeOfEncode _⟩, ?_⟩⟩
  rw [exec_xorbit_eq_updateCell]
  exact updateCell_course (fun x => x ^^ decide (b = 1)) md r c hs

/-! ## Two TGLBITs of one cell (41_bit_access R124) -/

theorem exec_tglbit_eq_updateCell (md : RegNo) (r c : Shape) (s : State) :
    exec (.tglbit md r c) s = updateCell (fun x => !x) md r c s := by
  simp only [exec, execTglbit, Bool.xor_true]

theorem MatrixReg.ext {M N : MatrixReg} (hp : M.present = N.present) (hr : M.rows = N.rows)
    (hc : M.cols = N.cols) (hb : M.bits = N.bits) : M = N := by
  cases M; cases N; simp_all

/-- The written cell reads what was written. -/
theorem WroteCell.cell_eq {s t : State} {md : RegNo} {r c : Shape} {b : Bool} (h : WroteCell md r c b s t) :
    (t.readMR md).cell r.toNat c.toNat = b := by
  obtain ⟨-, -, hcols, hbits, -⟩ := h
  rw [MatrixReg.cell, hcols, hbits, if_pos rfl]

/-- Writing a cell and then its old value leaves every matrix register as it was. -/
theorem WroteCell.sameMatrices_of_restored {s t u : State} {md : RegNo} {r c : Shape} {b : Bool}
    (h : WroteCell md r c b s t) (h' : WroteCell md r c ((s.readMR md).cell r.toNat c.toNat) t u) :
    SameMatrices s u := by
  obtain ⟨hp, hr, hc, hbits, hothers, -⟩ := h
  obtain ⟨hp', hr', hc', hbits', hothers', -⟩ := h'
  intro j
  by_cases hj : j = md
  · subst hj
    refine MatrixReg.ext (hp'.trans hp) (hr'.trans hr) (hc'.trans hc) (BitVec.eq_of_getLsbD_eq fun k _ => ?_)
    rw [hbits', hc, hbits]
    split
    next hk => rw [hk]; rfl
    next => rfl
  · rw [hothers' j hj, hothers j hj]

/-- After TGLBIT wrote a cell, a second TGLBIT of it restores the matrix registers. -/
theorem exec_tglbit_restores {s t : State} {md : RegNo} {r c : Shape} (hg : General md)
    (hp : (s.readMR md).present = true) (hin : CellIn (s.readMR md) r c)
    (hi : r.toNat * (s.readMR md).cols.toNat + c.toNat < 64)
    (h : WroteCell md r c (!(s.readMR md).cell r.toNat c.toNat) s t) :
    ∃ u, exec (.tglbit md r c) t = .next u ∧ SameMatrices s u := by
  obtain ⟨hp', hr', hc', -⟩ := id h
  obtain ⟨u, hu, hw⟩ := updateCell_wroteCell (s := t) (r := r) (c := c) (fun x => !x) hg (hp'.trans hp)
    (by rwa [CellIn, hr', hc']) (by rwa [hc'])
  rw [h.cell_eq, Bool.not_not] at hw
  exact ⟨u, (exec_tglbit_eq_updateCell md r c t).trans hu, h.sameMatrices_of_restored hw⟩

/-- Settles O43: the shared course with negation, which is its own inverse. -/
theorem tglbitInvertsCell : Obligations.TglbitInvertsCell := by
  refine ⟨by decide, fun _ _ _ _ => rfl,
    fun md r c s hs => ⟨⟨Laws.EncodesInRow.tglbit md r c, decodeOfEncode _⟩, ?_⟩⟩
  rw [exec_tglbit_eq_updateCell]
  obtain ⟨hconst, habsent, houtside, hinside⟩ := updateCell_course (fun x => !x) md r c hs
  refine ⟨hconst, habsent, houtside, fun hg hp hin => ?_⟩
  obtain ⟨t, ht, hw⟩ := hinside hg hp hin
  exact ⟨t, ht, hw, exec_tglbit_restores hg hp hin (hin.index_lt.trans_le (hs md).area_le) hw⟩

end Sys2Proof.Machine
end

section
/-! PROOFS. The statements about byte conversion and multiplication (spec 42_convert_multiply R140 to R145), and the
codec as a course of FROMBYTE, MUL and TOBYTE. -/

namespace Sys2Proof.Machine

/-! ## FROMBYTE -/

/-- The storage word of FROMBYTE's row is the masked byte (42_convert_multiply R140). -/
theorem toNat_bits_rowOfByte (b : Byte) {n : Shape} (hn : n.toNat ≤ 8) :
    (rowOfByte b n).bits.toNat = b.toNat % 2 ^ n.toNat := by
  refine Nat.eq_of_testBit_eq fun k => ?_
  rw [Nat.testBit_mod_two_pow, BitVec.testBit_toNat, BitVec.testBit_toNat, getLsbD_rowOfByte b n hn]

/-- FROMBYTE within the length limit (42_convert_multiply R140). -/
theorem exec_frombyte_wroteMatrix {md : RegNo} (b : Byte) {n : Shape} (hg : General md) (hn : n.toNat ≤ 8)
    (s : State) : ∃ t, exec (.frombyte md b n) s = .next t ∧ WroteMatrix md (rowOfByte b n) s t := by
  have hfit : ¬ Config.maxDim < n.toNat := not_lt.2 hn
  simp only [exec, execFrombyte, hg.isConst_eq, hfit, Bool.false_eq_true, if_false]
  exact complete_wroteMatrix s _ hg

/-- FROMBYTE with a length above the limit (42_convert_multiply R140). -/
theorem exec_frombyte_faulted_of_long {md : RegNo} (b : Byte) {n : Shape} (hg : General md) (hn : 8 < n.toNat)
    (s : State) : ∃ t, exec (.frombyte md b n) s = .next t ∧ Faulted .invalidLength s t := by
  have hlong : Config.maxDim < n.toNat := hn
  simp only [exec, execFrombyte, hg.isConst_eq, hlong, Bool.false_eq_true, if_false, if_true]
  exact raise_faulted .invalidLength s

/-- Settles O46: the destination check, the length check, and the row read bit by bit. -/
theorem frombyteBuildsRow : Obligations.FrombyteBuildsRow := by
  refine ⟨by decide, fun md b n s => ⟨⟨Laws.EncodesInRow.frombyte md b n, decodeOfEncode _⟩,
    fun hc => exec_faulted_of_constant_target rfl hc s, fun hg hn => exec_frombyte_faulted_of_long b hg hn s,
    fun hg hn => ?_⟩⟩
  obtain ⟨t, ht, hw⟩ := exec_frombyte_wroteMatrix b hg hn s
  exact ⟨t, rowOfByte b n, ht, hw, rfl, rfl, rfl, toNat_bits_rowOfByte b hn, getLsbD_rowOfByte b n hn⟩

/-! ## TOBYTE -/

theorem byteOfRow_eq_zero {M : MatrixReg} (h : M.present = false ∨ M.rows = 0) : byteOfRow M = 0 := if_pos h

/-- Bit `c` of the packed row 0 (42_convert_multiply R141). -/
theorem getLsbD_byteOfRow {M : MatrixReg} (hp : M.present = true) (hr : M.rows ≠ 0) {c : Nat} (hc : c < 8) :
    (byteOfRow M).getLsbD c = (decide (c < M.cols.toNat) && M.bits.getLsbD c) := by
  have hrow : ¬ (M.present = false ∨ M.rows = 0) := not_or.2 ⟨by rw [hp]; decide, hr⟩
  rw [byteOfRow, if_neg hrow, getLsbD_packBits, MatrixReg.cell, Nat.zero_mul, Nat.zero_add, decide_eq_true hc,
    Bool.true_and]

theorem exec_tobyte_wroteRes (ma : RegNo) (s : State) :
    ∃ t, exec (.tobyte ma) s = .next t ∧ WroteRes (byteOfRow (s.readMR ma)) s t := complete_wroteRes s _

/-- Settles O47: RES is the packed row 0; G and Ht are evaluated. -/
theorem tobytePacksRowZero : Obligations.TobytePacksRowZero := by
  refine ⟨by decide, fun s => ⟨?_, ?_⟩,
    fun ma s => ⟨⟨Laws.EncodesInRow.tobyte ma, decodeOfEncode _⟩, fun hzero => ?_, fun hp hr => ?_⟩⟩
  · obtain ⟨t, ht, hres, -⟩ := exec_tobyte_wroteRes 6 s
    exact ⟨t, ht, hres.trans (by decide : byteOfRow genMatrix = 0xE1)⟩
  · obtain ⟨t, ht, hres, -⟩ := exec_tobyte_wroteRes 7 s
    exact ⟨t, ht, hres.trans (by decide : byteOfRow parMatrix = 0x0E)⟩
  · exact byteOfRow_eq_zero hzero ▸ exec_tobyte_wroteRes ma s
  · obtain ⟨t, ht, hw⟩ := exec_tobyte_wroteRes ma s
    exact ⟨t, _, ht, hw, fun _ hc => getLsbD_byteOfRow hp hr hc⟩

/-! ## FROMBYTE and then TOBYTE (42_convert_multiply R145) -/

/-- Packing FROMBYTE's row gives back the low bits of the byte. -/
theorem byteOfRow_rowOfByte (b : Byte) {n : Shape} (hn : n.toNat ≤ 8) :
    byteOfRow (rowOfByte b n) = b &&& BitVec.ofNat 8 (2 ^ n.toNat - 1) := by
  refine BitVec.eq_of_getLsbD_eq fun c hc => ?_
  rw [getLsbD_byteOfRow (M := rowOfByte b n) rfl (by decide : (1 : Shape) ≠ 0) hc, getLsbD_rowOfByte b n hn,
    BitVec.getLsbD_and, BitVec.getLsbD_ofNat, Nat.testBit_two_pow_sub_one]
  simp [hc, rowOfByte, Bool.and_comm]

/-- Settles O48: TOBYTE reads the row that FROMBYTE wrote. -/
theorem byteRoundTrip : Obligations.ByteRoundTrip := by
  intro md b n s hg hn
  obtain ⟨t, ht, hrow, -⟩ := exec_frombyte_wroteMatrix b hg hn s
  obtain ⟨u, hu, hres, -⟩ := exec_tobyte_wroteRes md t
  exact ⟨t, u, ht, hu, by rw [hres, hrow, byteOfRow_rowOfByte b hn]⟩

/-! ## MUL -/

/-- Accumulating by XOR gives the parity of the number of ones (42_convert_multiply R143). -/
theorem foldl_xor_eq_parity {α : Type} (p : α → Bool) (l : List α) (acc : Bool) :
    l.foldl (fun acc k => acc ^^ p k) acc = (acc ^^ decide (l.countP p % 2 = 1)) := by
  induction l generalizing acc with
  | nil => simp
  | cons k l ih =>
    rw [List.foldl_cons, ih, Bool.xor_assoc]
    congr 1
    have hflip : (l.countP p + 1) % 2 = 1 ↔ ¬ l.countP p % 2 = 1 := by omega
    cases hk : p k
    · rw [List.countP_cons_of_neg (by simp [hk]), Bool.false_xor]
    · rw [List.countP_cons_of_pos hk, Bool.true_xor, decide_eq_decide.2 hflip, decide_not]

/-- A cell of the product is the parity of the positions where row and column are both 1. -/
theorem mulCell_eq_parity (A B : MatrixReg) (i j : Nat) : mulCell A B i j =
    decide ((List.range A.cols.toNat).countP (fun k => A.cell i k && B.cell k j) % 2 = 1) := by
  rw [mulCell, foldl_xor_eq_parity, Bool.false_xor]

theorem degenerate_eq_false_of_not {M : MatrixReg} (h : ¬ Degenerate M) : degenerate M = false := by
  rwa [← degenerate_eq_true_iff, Bool.not_eq_true] at h

/-- MUL refuses operands whose inner dimensions differ (42_convert_multiply R142). -/
theorem exec_mul_faulted_of_mismatch {s : State} {md ma mb : RegNo} (hg : General md)
    (ha : ¬ Degenerate (s.readMR ma)) (hb : ¬ Degenerate (s.readMR mb))
    (hdim : (s.readMR ma).cols ≠ (s.readMR mb).rows) :
    ∃ t, exec (.mul md ma mb) s = .next t ∧ Faulted .dimensionMismatch s t := by
  have he : exec (.mul md ma mb) s = raise .dimensionMismatch s := by
    simp only [exec, execMul, hg.isConst_eq, degenerate_eq_false_of_not ha, degenerate_eq_false_of_not hb,
      Bool.or_false, Bool.false_eq_true, if_false, if_pos hdim]
  exact he ▸ raise_faulted .dimensionMismatch s

/-- MUL past its three checks (42_convert_multiply R142). -/
theorem exec_mul_wroteMatrix {s : State} {md ma mb : RegNo} (hg : General md)
    (ha : ¬ Degenerate (s.readMR ma)) (hb : ¬ Degenerate (s.readMR mb))
    (hdim : (s.readMR ma).cols = (s.readMR mb).rows) :
    ∃ t, exec (.mul md ma mb) s = .next t ∧ WroteMatrix md (multiply (s.readMR ma) (s.readMR mb)) s t := by
  have he : exec (.mul md ma mb) s = complete (s.writeMR md (multiply (s.readMR ma) (s.readMR mb))) := by
    simp only [exec, execMul, hg.isConst_eq, degenerate_eq_false_of_not ha, degenerate_eq_false_of_not hb,
      Bool.or_false, Bool.false_eq_true, if_false, if_neg (not_not.2 hdim)]
  exact he ▸ complete_wroteMatrix s _ hg

/-- Settles O49: the three checks in their order, and the product of the operands of the state before, cell by cell. -/
theorem mulIsMatrixProduct : Obligations.MulIsMatrixProduct := by
  refine ⟨by decide, fun md ma mb s hs => ⟨⟨Laws.EncodesInRow.mul md ma mb, decodeOfEncode _⟩,
    fun hc => exec_faulted_of_constant_target rfl hc s, exec_mul_faulted_of_degenerate, exec_mul_faulted_of_mismatch,
    fun hg ha hb hdim => ?_⟩⟩
  obtain ⟨t, ht, hw⟩ := exec_mul_wroteMatrix hg ha hb hdim
  obtain ⟨hrows, -⟩ := hs ma
  obtain ⟨-, hcols, -⟩ := hs mb
  exact ⟨t, _, ht, hw, rfl, rfl, rfl, multiply_wf _ _ (hs ma) (hs mb), fun i j hi hj =>
    (cell_multiply _ _ i j hrows hcols hi hj).trans (mulCell_eq_parity _ _ i j)⟩

/-! ## The products of the constants -/

theorem genMatrix_not_degenerate : ¬ Degenerate genMatrix := by decide

theorem parMatrix_not_degenerate : ¬ Degenerate parMatrix := by decide

theorem readMR_not_degenerate_of_constant {c : RegNo} (hc : Constant c) (s : State) : ¬ Degenerate (s.readMR c) := by
  rcases hc with rfl | rfl
  · exact genMatrix_not_degenerate
  · exact parMatrix_not_degenerate

/-- G×Ht is zero: every codeword has syndrome 0 (95_test_vectors V-MUL). -/
theorem multiply_genMatrix_parMatrix :
    multiply genMatrix parMatrix = { present := true, rows := 4, cols := 4, bits := 0 } := by decide

theorem multiply_parMatrix_genMatrix :
    multiply parMatrix genMatrix = { present := true, rows := 8, cols := 8, bits := 0x78B4D2E1874B2D1E } := by decide

/-- Settles O50: MUL past its checks, with the two products evaluated. -/
theorem constantProducts : Obligations.ConstantProducts := fun _ s hg =>
  ⟨multiply_genMatrix_parMatrix ▸
      exec_mul_wroteMatrix (s := s) (ma := 6) (mb := 7) hg genMatrix_not_degenerate parMatrix_not_degenerate rfl,
    multiply_parMatrix_genMatrix ▸
      exec_mul_wroteMatrix (s := s) (ma := 7) (mb := 6) hg parMatrix_not_degenerate genMatrix_not_degenerate rfl⟩

/-! ## The course of FROMBYTE, MUL and TOBYTE (43_codec R160, R161) -/

/-- FROMBYTE, MUL with a constant register and TOBYTE, through any two general registers, equal or not. -/
theorem exec_course {a b c : RegNo} (x : Byte) {n : Shape} (s : State) (ha : General a) (hb : General b)
    (hc : Constant c) (hn : n.toNat ≤ 8) (hdim : n = (s.readMR c).rows) :
    ∃ t₁ t₂ t₃, exec (.frombyte a x n) s = .next t₁ ∧ exec (.mul b a c) t₁ = .next t₂ ∧
      exec (.tobyte b) t₂ = .next t₃ ∧ t₃.res = byteOfRow (multiply (rowOfByte x n) (s.readMR c)) := by
  have hca : c ≠ a := by rintro rfl; exact hc.elim ha.1 ha.2
  have hM := readMR_not_degenerate_of_constant hc s
  obtain ⟨t₁, h₁, hrow, hothers, -⟩ := exec_frombyte_wroteMatrix x ha hn s
  have hconst : t₁.readMR c = s.readMR c := hothers c hca
  have hrowOk : ¬ Degenerate (rowOfByte x n) := by
    rintro (h | h | h)
    · cases h
    · cases h
    · exact hM (.inr (.inl (hdim.symm.trans h)))
  obtain ⟨t₂, h₂, hprod, -⟩ := exec_mul_wroteMatrix (s := t₁) (ma := a) (mb := c) hb (hrow ▸ hrowOk)
    (hconst ▸ hM) (by rw [hrow, hconst]; exact hdim)
  obtain ⟨t₃, h₃, hres, -⟩ := exec_tobyte_wroteRes b t₂
  exact ⟨t₁, t₂, t₃, h₁, h₂, h₃, by rw [hres, hprod, hrow, hconst]⟩

/-- FROMBYTE of length 4 reads the message nibble alone. -/
theorem rowOfByte_low_nibble (x : Byte) : rowOfByte ((x.extractLsb' 0 4).setWidth 8) 4 = rowOfByte x 4 := by
  refine MatrixReg.ext rfl rfl rfl (BitVec.eq_of_getLsbD_eq fun k _ => ?_)
  rw [getLsbD_rowOfByte _ 4 (by decide), getLsbD_rowOfByte _ 4 (by decide)]
  by_cases hk : k < 4
  · simp [hk, show k < 8 by omega]
  · simp [hk]

/-- A row of at most four columns packs into a nibble. -/
theorem byteOfRow_eq_setWidth_nibble {M : MatrixReg} (hp : M.present = true) (hr : M.rows ≠ 0)
    (hc : M.cols.toNat ≤ 4) : byteOfRow M = ((byteOfRow M).setWidth 4).setWidth 8 := by
  refine BitVec.eq_of_getLsbD_eq fun k hk => ?_
  by_cases hk4 : k < 4
  · simp [hk, hk4]
  · have hout : ¬ k < M.cols.toNat := by omega
    rw [getLsbD_byteOfRow hp hr hk]
    simp [hk4, hout]

/-- The course with Ht gives the syndrome, with the high nibble 0. -/
theorem byteOfRow_multiply_parMatrix (x : Byte) :
    byteOfRow (multiply (rowOfByte x 8) parMatrix) = (syndrome x).setWidth 8 :=
  byteOfRow_eq_setWidth_nibble rfl (by decide : (1 : Shape) ≠ 0) (by decide : (4 : Shape).toNat ≤ 4)

/-! ## DEC, exit by exit (43_codec R163) -/

/-- Completing with RES and STAT written. -/
theorem complete_decoded (s : State) (v : Byte) (x : Stat) :
    ∃ t, complete { s with res := v, stat := x } = .next t ∧ Decoded v x s t :=
  ⟨_, rfl, rfl, rfl, fun _ => rfl, ⟨rfl, rfl⟩, answered_respond .none rfl rfl⟩

theorem exec_dec_ok {x : Byte} (h : syndrome x = 0) (s : State) :
    ∃ t, exec (.dec x) s = .next t ∧ Decoded (lowNibble x) .ok s t := by
  simp only [exec, execDec, if_pos h]
  exact complete_decoded s _ _

theorem exec_dec_uncorrectable {x : Byte} (h : syndrome x ≠ 0) (hnone : slut (syndrome x) = none) (s : State) :
    ∃ t, exec (.dec x) s = .next t ∧ Decoded s.res .uncorrectable s t := by
  simp only [exec, execDec, if_neg h, hnone]
  exact complete_decoded s _ _

/-- The locator names no position for syndrome 0, so a named position alone says that DEC corrects. -/
theorem syndrome_ne_zero_of_slut {x : Nibble} {p : BitVec 3} (h : slut x = some p) : x ≠ 0 := by
  rintro rfl
  exact absurd h (by revert p; decide)

theorem exec_dec_corrected {x : Byte} {p : BitVec 3} (hp : slut (syndrome x) = some p) (s : State) :
    ∃ t, exec (.dec x) s = .next t ∧ Decoded (lowNibble (flipBit x p)) .corrected s t := by
  simp only [exec, execDec, if_neg (syndrome_ne_zero_of_slut hp), hp]
  exact complete_decoded s _ _

theorem lowNibble_eq_and (x : Byte) : lowNibble x = x &&& 0x0F := by
  revert x; decide

theorem flipBit_eq_xor_two_pow (x : Byte) (p : BitVec 3) : flipBit x p = x ^^^ BitVec.ofNat 8 (2 ^ p.toNat) := by
  have hbit : ∀ p : BitVec 3, 1#8 <<< p.toNat = BitVec.ofNat 8 (2 ^ p.toNat) := by decide
  rw [flipBit, hbit]

/-- What DEC does, by the syndrome alone: the three exits exclude one another. -/
theorem exec_dec_by_syndrome (x : Byte) (s : State) : ∃ u, exec (.dec x) s = .next u ∧
    (syndrome x = 0 ↔ u.stat = .ok) ∧
    (∀ p : BitVec 3, slut (syndrome x) = some p →
      u.stat = .corrected ∧ u.res = (x ^^^ BitVec.ofNat 8 (2 ^ p.toNat)) &&& 0x0F) ∧
    (syndrome x ≠ 0 → slut (syndrome x) = none → u.stat = .uncorrectable ∧ u.res = s.res) := by
  by_cases h0 : syndrome x = 0
  · obtain ⟨u, hu, -, hstat, -⟩ := exec_dec_ok h0 s
    exact ⟨u, hu, iff_of_true h0 hstat, fun p hp => absurd h0 (syndrome_ne_zero_of_slut hp), fun h => absurd h0 h⟩
  · cases hslut : slut (syndrome x) with
    | none =>
      obtain ⟨u, hu, hres, hstat, -⟩ := exec_dec_uncorrectable h0 hslut s
      exact ⟨u, hu, iff_of_false h0 (by simp [hstat]), fun _ hp => by simp at hp, fun _ _ => ⟨hstat, hres⟩⟩
    | some q =>
      obtain ⟨u, hu, hres, hstat, -⟩ := exec_dec_corrected hslut s
      refine ⟨u, hu, iff_of_false h0 (by simp [hstat]), fun p hp => ⟨hstat, ?_⟩, fun _ h => by simp at h⟩
      cases hp
      rw [hres, lowNibble_eq_and, flipBit_eq_xor_two_pow]

/-- Settles O58: the course with G gives the codeword, the course with Ht the syndrome, and DEC acts by the syndrome
alone. -/
theorem codecEqualsMatrixCourse : Obligations.CodecEqualsMatrixCourse := by
  intro a b x s ha hb
  constructor
  · obtain ⟨t₁, t₂, t₃, h₁, h₂, h₃, hres⟩ :=
      exec_course (c := 6) (n := 4) x s ha hb (.inl rfl) (by decide) rfl
    refine ⟨t₁, t₂, t₃, _, h₁, h₂, h₃, rfl, ?_⟩
    rw [hres, ← rowOfByte_low_nibble]
    rfl
  · obtain ⟨t₁, t₂, t₃, h₁, h₂, h₃, hres⟩ :=
      exec_course (c := 7) (n := 8) x s ha hb (.inr rfl) (by decide) rfl
    obtain ⟨u, hu, hok, hcorrected, huncorrectable⟩ := exec_dec_by_syndrome x s
    have hsyn : t₃.res = (syndrome x).setWidth 8 := hres.trans (byteOfRow_multiply_parMatrix x)
    have hnibble : t₃.res.setWidth 4 = syndrome x := by
      rw [hsyn, BitVec.setWidth_setWidth_of_le _ (by decide), BitVec.setWidth_eq]
    have hzero : t₃.res = 0 ↔ syndrome x = 0 :=
      ⟨fun h => by rw [← hnibble, h]; rfl, fun h => by rw [hsyn, h]; rfl⟩
    exact ⟨t₁, t₂, t₃, u, h₁, h₂, h₃, hu, hsyn, hzero.trans hok,
      fun p hp => hcorrected p (hnibble ▸ hp), fun h hnone => huncorrectable (mt hzero.2 h) (hnibble ▸ hnone)⟩

end Sys2Proof.Machine
end

section
/-! PROOFS. The statements about the codec (spec 43_codec R160 to R168): ENC and the syndrome as products and in closed
form, DEC exit by exit, what DEC makes of one, two and three flipped bits of a codeword, and the host's byte stream
(60_exceptions R207). The key fact is that the syndrome is linear, so that a received word has the syndrome of its
error alone. -/

namespace Sys2Proof.Machine

/-! ## A message row times a constant matrix, bit by bit -/

/-- The parity of the positions below `n + 1`, position `n` apart. -/
theorem parity_range_succ (p : Nat → Bool) (n : Nat) : decide ((List.range (n + 1)).countP p % 2 = 1) =
    (decide ((List.range n).countP p % 2 = 1) ^^ p n) := by
  have hparity (l : List Nat) : decide (l.countP p % 2 = 1) = l.foldl (fun acc k => acc ^^ p k) false := by
    rw [foldl_xor_eq_parity, Bool.false_xor]
  rw [hparity, hparity, List.range_succ, List.foldl_append, List.foldl_cons, List.foldl_nil]

/-- Bit `c` of a byte taken as a row and multiplied by `B` (42_convert_multiply R142). -/
theorem getLsbD_byteOfRow_multiply (x : Byte) {B : MatrixReg} (hr : B.rows.toNat ≤ 8) (hB : B.cols.toNat ≤ 8)
    {c : Nat} (hc : c < B.cols.toNat) : (byteOfRow (multiply (rowOfByte x B.rows) B)).getLsbD c =
      decide ((List.range B.rows.toNat).countP (fun k => x.getLsbD k && B.cell k c) % 2 = 1) := by
  have hrow : ∀ k ∈ List.range B.rows.toNat, (rowOfByte x B.rows).cell 0 k = x.getLsbD k := fun k hk => by
    rw [MatrixReg.cell, Nat.zero_mul, Nat.zero_add, getLsbD_rowOfByte x _ hr, decide_eq_true (List.mem_range.1 hk),
      Bool.true_and]
  have hprod : (multiply (rowOfByte x B.rows) B).bits.getLsbD c = mulCell (rowOfByte x B.rows) B 0 c := by
    have h := cell_multiply (rowOfByte x B.rows) B 0 c (by decide : (1 : Shape).toNat ≤ 8) hB
      (by decide : 0 < (1 : Shape).toNat) hc
    rwa [MatrixReg.cell, Nat.zero_mul, Nat.zero_add] at h
  have hcount : (List.range B.rows.toNat).countP (fun k => (rowOfByte x B.rows).cell 0 k && B.cell k c) =
      (List.range B.rows.toNat).countP (fun k => x.getLsbD k && B.cell k c) :=
    List.countP_congr fun k hk => by rw [hrow k hk]
  rw [getLsbD_byteOfRow rfl (by decide : (1 : Shape) ≠ 0) (hc.trans_le hB), hprod, mulCell_eq_parity]
  exact (congrArg₂ _ (decide_eq_true hc) (by rw [← hcount]; rfl)).trans (Bool.true_and _)

/-! ## ENC (43_codec R160) -/

/-- Bit `c` of the codeword is the parity with column `c` of G. -/
theorem getLsbD_codeword_eq_parity (x : Byte) {c : Nat} (hc : c < 8) : (codeword (x.extractLsb' 0 4)).getLsbD c =
    decide ((List.range 4).countP (fun k => x.getLsbD k && genMatrix.cell k c) % 2 = 1) := by
  rw [codeword, rowOfByte_low_nibble]
  exact getLsbD_byteOfRow_multiply x (B := genMatrix) (by decide) (by decide) hc

/-- The low nibble of a codeword is the message, the high nibble the parity of the other three message bits. -/
theorem getLsbD_codeword (x : Byte) {j : Nat} (hj : j < 4) :
    (codeword (x.extractLsb' 0 4)).getLsbD j = x.getLsbD j ∧ (codeword (x.extractLsb' 0 4)).getLsbD (4 + j) =
      ((x.getLsbD 0 ^^ x.getLsbD 1 ^^ x.getLsbD 2 ^^ x.getLsbD 3) ^^ x.getLsbD j) := by
  rw [getLsbD_codeword_eq_parity x (by omega), getLsbD_codeword_eq_parity x (by omega)]
  simp only [parity_range_succ]
  interval_cases j <;> grind [genMatrix_cell]

theorem four_le_weight_codeword : ∀ m : Nibble, m ≠ 0 → 4 ≤ (List.range 8).countP (codeword m).getLsbD := by decide

theorem exec_enc_wroteRes (x : Byte) (s : State) :
    ∃ t, exec (.enc x) s = .next t ∧ WroteRes (codeword (x.extractLsb' 0 4)) s t := complete_wroteRes s _

/-- Settles O51: RES is the codeword, read bit by bit; its weight is evaluated over the sixteen messages. -/
theorem encEncodesMessage : Obligations.EncEncodesMessage := by
  have hres (x v : Byte) (h : codeword (x.extractLsb' 0 4) = v) (s : State) :
      ∃ t, exec (.enc x) s = .next t ∧ t.res = v := by
    obtain ⟨t, ht, hv, -⟩ := exec_enc_wroteRes x s
    exact ⟨t, ht, hv.trans h⟩
  refine ⟨by decide, fun s => ⟨hres _ _ (by decide) s, hres _ _ (by decide) s, hres _ _ (by decide) s⟩,
    fun x s => ⟨⟨Laws.EncodesInRow.enc x, decodeOfEncode _⟩, ?_⟩⟩
  obtain ⟨t, ht, hw⟩ := exec_enc_wroteRes x s
  exact ⟨t, _, ht, hw, fun c hc => getLsbD_codeword_eq_parity x hc, fun j hj => getLsbD_codeword x hj,
    four_le_weight_codeword _⟩

/-! ## The syndrome (43_codec R161) -/

/-- Bit `j` of the syndrome is the parity with column `j` of Ht. -/
theorem getLsbD_syndrome_eq_parity (x : Byte) {j : Nat} (hj : j < 4) : (syndrome x).getLsbD j =
    decide ((List.range 8).countP (fun k => x.getLsbD k && parMatrix.cell k j) % 2 = 1) := by
  rw [syndrome, BitVec.getLsbD_setWidth, decide_eq_true hj, Bool.true_and]
  exact getLsbD_byteOfRow_multiply x (B := parMatrix) (by decide) (by decide) hj

theorem getLsbD_syndrome (x : Byte) {j : Nat} (hj : j < 4) : (syndrome x).getLsbD j =
    (x.getLsbD (4 + j) ^^ (x.getLsbD 0 ^^ x.getLsbD 1 ^^ x.getLsbD 2 ^^ x.getLsbD 3) ^^ x.getLsbD j) := by
  rw [getLsbD_syndrome_eq_parity x hj]
  simp only [parity_range_succ]
  interval_cases j <;> grind [parMatrix_cell]

/-- The syndrome is linear over GF(2). -/
theorem syndrome_xor (x y : Byte) : syndrome (x ^^^ y) = syndrome x ^^^ syndrome y := by
  refine BitVec.eq_of_getLsbD_eq fun j hj => ?_
  simp only [BitVec.getLsbD_xor, getLsbD_syndrome _ hj]
  have hcomm : Std.Commutative Bool.xor := ⟨Bool.xor_comm⟩ -- for `ac_rfl`
  ac_rfl

theorem syndrome_codeword : ∀ m : Nibble, syndrome (codeword m) = 0 := by decide

/-- The syndrome of a received word is that of its error. -/
theorem syndrome_codeword_xor (m : Nibble) (e : Byte) : syndrome (codeword m ^^^ e) = syndrome e := by
  rw [syndrome_xor, syndrome_codeword]
  exact BitVec.zero_xor

/-- The syndrome of one flipped bit is its row of Ht. -/
theorem syndrome_flipBit_codeword (m : Nibble) (p : BitVec 3) :
    syndrome (flipBit (codeword m) p) = parMatrix.bits.extractLsb' (4 * p.toNat) 4 := by
  rw [flipBit, syndrome_codeword_xor]
  revert p
  decide

/-- Settles O52: the product, its closed form, and the rows of Ht. -/
theorem syndromeClosedForm : Obligations.SyndromeClosedForm := by
  refine ⟨fun x j hj => ⟨getLsbD_syndrome_eq_parity x hj, getLsbD_syndrome x hj⟩, syndrome_codeword, fun m p => ?_⟩
  rw [syndrome_flipBit_codeword]
  revert p
  decide

/-! ## DEC, exit by exit (43_codec R163, R164) -/

theorem lowNibble_xor (x y : Byte) : lowNibble (x ^^^ y) = lowNibble x ^^^ lowNibble y := by
  rw [lowNibble, BitVec.extractLsb'_xor, BitVec.setWidth_xor, lowNibble, lowNibble]

/-- Flipping a parity bit leaves the message bits (43_codec R163). -/
theorem lowNibble_flipBit_of_four_le (x : Byte) {p : BitVec 3} (hp : 4 ≤ p.toNat) :
    lowNibble (flipBit x p) = lowNibble x := by
  have hparity : ∀ p : BitVec 3, 4 ≤ p.toNat → lowNibble (1#8 <<< p.toNat) = 0#8 := by decide
  rw [flipBit, lowNibble_xor, hparity p hp, BitVec.xor_zero]

/-- Settles O53: one lemma for each exit. -/
theorem decDecodesCodeword : Obligations.DecDecodesCodeword := by
  refine ⟨by decide, by decide, by decide, fun s => ?_, fun x s => ⟨⟨Laws.EncodesInRow.dec x, decodeOfEncode _⟩,
    fun h => lowNibble_eq_and x ▸ exec_dec_ok h s, fun h hnone => exec_dec_uncorrectable h hnone s, fun p _ hp => ?_⟩⟩
  · obtain ⟨t, ht, hres, hstat, -⟩ := exec_dec_corrected (x := 0x4A) (p := 0) (by decide) s
    exact ⟨t, ht, hres.trans (by decide), hstat⟩
  · obtain ⟨t, ht, hdec⟩ := exec_dec_corrected hp s
    obtain ⟨hres, -⟩ := id hdec
    refine ⟨t, ht, ?_, fun h4 => ?_⟩
    · rwa [lowNibble_eq_and, flipBit_eq_xor_two_pow] at hdec
    · rw [hres, lowNibble_flipBit_of_four_le x h4, lowNibble_eq_and]

/-- Settles O56: STAT is OK in the first exit of DEC and in no other. -/
theorem okIffSyndromeZero : Obligations.OkIffSyndromeZero := by
  intro x s
  obtain ⟨t, ht, hok, -⟩ := exec_dec_by_syndrome x s
  exact ⟨t, ht, hok.symm⟩

/-- A command answers one state: what holds of the state it is known to answer holds of any that it answers. -/
theorem of_exec_eq_next {P : State → Prop} {i : Instr} {s t : State} (h : ∃ u, exec i s = .next u ∧ P u)
    (ht : exec i s = .next t) : P t := by
  obtain ⟨u, hu, hP⟩ := h
  rwa [Host.Outcome.next.inj (ht.symm.trans hu)]

/-- Which exit DEC takes, and what it writes there, is the same in every state. -/
theorem exec_dec_uniform (x : Byte) :
    (∃ v y, ∀ s, ∃ t, exec (.dec x) s = .next t ∧ Decoded v y s t) ∨
    (∀ s, ∃ t, exec (.dec x) s = .next t ∧ Decoded s.res .uncorrectable s t) := by
  by_cases h0 : syndrome x = 0
  · exact .inl ⟨_, _, exec_dec_ok h0⟩
  · cases hslut : slut (syndrome x) with
    | none => exact .inr (exec_dec_uncorrectable h0 hslut)
    | some p => exact .inl ⟨_, _, exec_dec_corrected hslut⟩

/-- Settles O31: ENC writes the codeword of its operand in every state, and DEC takes the same exit in every state. -/
theorem codecReadsItsOperandAlone : Obligations.CodecReadsItsOperandAlone := by
  refine fun x s₁ s₂ t₁ t₂ => ⟨fun h₁ h₂ => ?_, fun h₁ h₂ => ?_⟩
  · obtain ⟨hres₁, -⟩ := of_exec_eq_next (exec_enc_wroteRes x s₁) h₁
    obtain ⟨hres₂, -⟩ := of_exec_eq_next (exec_enc_wroteRes x s₂) h₂
    exact hres₁.trans hres₂.symm
  · rcases exec_dec_uniform x with ⟨v, y, h⟩ | h
    · obtain ⟨hres₁, hstat₁, -⟩ := of_exec_eq_next (h s₁) h₁
      obtain ⟨hres₂, hstat₂, -⟩ := of_exec_eq_next (h s₂) h₂
      exact ⟨hstat₁.trans hstat₂.symm, fun _ => hres₁.trans hres₂.symm⟩
    · obtain ⟨-, hstat₁, -⟩ := of_exec_eq_next (h s₁) h₁
      obtain ⟨-, hstat₂, -⟩ := of_exec_eq_next (h s₂) h₂
      exact ⟨hstat₁.trans hstat₂.symm, fun hne => absurd hstat₁ hne⟩

/-! ## No error and one error (43_codec R165, R166) -/

theorem lowNibble_codeword : ∀ m : Nibble, lowNibble (codeword m) = m.setWidth 8 := by decide

theorem flipBit_flipBit (x : Byte) (p : BitVec 3) : flipBit (flipBit x p) p = x := by
  rw [flipBit, flipBit, BitVec.xor_assoc, BitVec.xor_self, BitVec.xor_zero]

/-- DEC of a codeword (43_codec R165). -/
theorem exec_dec_codeword (m : Nibble) (s : State) :
    ∃ t, exec (.dec (codeword m)) s = .next t ∧ Decoded (m.setWidth 8) .ok s t :=
  lowNibble_codeword m ▸ exec_dec_ok (syndrome_codeword m) s

/-- DEC of a codeword with one bit flipped: the locator names that bit (43_codec R166). -/
theorem exec_dec_flipBit_codeword (m : Nibble) (p : BitVec 3) (s : State) :
    ∃ t, exec (.dec (flipBit (codeword m) p)) s = .next t ∧ Decoded (m.setWidth 8) .corrected s t := by
  have hp : slut (syndrome (flipBit (codeword m) p)) = some p :=
    (slut_eq_some_iff _ p).2 (syndrome_flipBit_codeword m p).symm
  have h := exec_dec_corrected hp s
  rwa [flipBit_flipBit, lowNibble_codeword] at h

theorem xor_two_pow_eq_flipBit (x : Byte) {p : Nat} (hp : p < 8) :
    x ^^^ BitVec.ofNat 8 (2 ^ p) = flipBit x (BitVec.ofNat 3 p) := by
  rw [flipBit_eq_xor_two_pow, BitVec.toNat_ofNat, Nat.mod_eq_of_lt hp]

/-- A byte below 16 is its low nibble. -/
theorem setWidth_low_nibble_of_lt {m : Byte} (hm : m.toNat < 16) : (m.extractLsb' 0 4).setWidth 8 = m := by
  refine BitVec.eq_of_toNat_eq ?_
  simp only [BitVec.toNat_setWidth, BitVec.extractLsb'_toNat, Nat.shiftRight_zero]
  omega

/-- Settles O54: DEC of the codeword that ENC wrote. -/
theorem roundTripWithoutError : Obligations.RoundTripWithoutError := by
  intro m s hm
  obtain ⟨t, ht, hcw, -⟩ := exec_enc_wroteRes m s
  obtain ⟨u, hu, hres, hstat, -⟩ := exec_dec_codeword (m.extractLsb' 0 4) t
  exact ⟨t, u, ht, hcw ▸ hu, hstat, hres.trans (setWidth_low_nibble_of_lt hm)⟩

/-- Settles O55: DEC of the codeword that ENC wrote, with one bit flipped. -/
theorem singleErrorIsCorrected : Obligations.SingleErrorIsCorrected := by
  intro m p s s' hm hp
  obtain ⟨t, ht, hcw, -⟩ := exec_enc_wroteRes m s
  obtain ⟨u, hu, hres, hstat, -⟩ := exec_dec_flipBit_codeword (m.extractLsb' 0 4) (BitVec.ofNat 3 p) s'
  refine ⟨t, u, ht, ?_, hstat, hres.trans (setWidth_low_nibble_of_lt hm)⟩
  rwa [hcw, xor_two_pow_eq_flipBit _ hp]

/-! ## Two and three errors (43_codec R168) -/

/-- Two flipped bits have an ERR syndrome. -/
theorem syndrome_two_bits : ∀ q < 8, ∀ p < q,
    (syndrome (BitVec.ofNat 8 (2 ^ p + 2 ^ q))).toNat ∈ [3, 5, 6, 9, 10, 12, 15] := by decide

/-- Three flipped bits have a syndrome of odd weight. -/
theorem syndrome_three_bits : ∀ r < 8, ∀ q < r, ∀ p < q,
    (syndrome (BitVec.ofNat 8 (2 ^ p + 2 ^ q + 2 ^ r))).toNat ∈ [1, 2, 4, 7, 8, 11, 13, 14] := by decide

/-- The locator names no position for a syndrome of even weight. -/
theorem slut_of_even_weight : ∀ x : Nibble, x.toNat ∈ [3, 5, 6, 9, 10, 12, 15] → x ≠ 0 ∧ slut x = none := by decide

/-- It names one for a syndrome of odd weight. -/
theorem slut_of_odd_weight : ∀ x : Nibble, x.toNat ∈ [1, 2, 4, 7, 8, 11, 13, 14] → ∃ k, slut x = some k := by decide


/-- With the bit flipped that its syndrome names, an error of three bits has message bits left: it is a codeword other
than 0. -/
theorem lowNibble_three_bits_ne_zero : ∀ r < 8, ∀ q < r, ∀ p < q, ∀ k,
    slut (syndrome (BitVec.ofNat 8 (2 ^ p + 2 ^ q + 2 ^ r))) = some k →
      lowNibble (flipBit (BitVec.ofNat 8 (2 ^ p + 2 ^ q + 2 ^ r)) k) ≠ 0 := by decide

/-- DEC of a codeword with an error of even weight syndrome. -/
theorem exec_dec_codeword_xor_uncorrectable (m : Nibble) {e : Byte}
    (he : (syndrome e).toNat ∈ [3, 5, 6, 9, 10, 12, 15]) (s : State) :
    ∃ u, exec (.dec (codeword m ^^^ e)) s = .next u ∧ u.stat = .uncorrectable ∧ u.res = s.res := by
  obtain ⟨hne, hnone⟩ := slut_of_even_weight _ he
  rw [← syndrome_codeword_xor m e] at hne hnone
  obtain ⟨u, hu, hres, hstat, -⟩ := exec_dec_uncorrectable hne hnone s
  exact ⟨u, hu, hstat, hres⟩

/-- DEC of a codeword with an error of odd weight syndrome changes the message by the message bits of the error, after
the bit its syndrome names is flipped in it too. -/
theorem exec_dec_codeword_xor_corrected (m : Nibble) {e : Byte} {k : BitVec 3} (hk : slut (syndrome e) = some k)
    (s : State) : ∃ u, exec (.dec (codeword m ^^^ e)) s = .next u ∧ u.stat = .corrected ∧
      u.res = m.setWidth 8 ^^^ lowNibble (flipBit e k) := by
  rw [← syndrome_codeword_xor m e] at hk
  obtain ⟨u, hu, hres, hstat, -⟩ := exec_dec_corrected hk s
  refine ⟨u, hu, hstat, ?_⟩
  rw [hres, flipBit, BitVec.xor_assoc, lowNibble_xor, lowNibble_codeword]
  rfl

/-- Settles O57: the syndrome of the received word is that of the error, evaluated over all pairs and triples. -/
theorem doubleAndTripleErrors : Obligations.DoubleAndTripleErrors := by
  intro m p q s s' hm hpq hq
  obtain ⟨t, ht, hcw, -⟩ := exec_enc_wroteRes m s
  refine ⟨t, ht, ?_, ?_, fun r hqr hr => ⟨?_, ?_⟩⟩ <;> rw [hcw]
  · rw [syndrome_codeword_xor]
    exact syndrome_two_bits q hq p hpq
  · exact exec_dec_codeword_xor_uncorrectable _ (syndrome_two_bits q hq p hpq) s'
  · rw [syndrome_codeword_xor]
    exact syndrome_three_bits r hr q hqr p hpq
  · obtain ⟨k, hk⟩ := slut_of_odd_weight _ (syndrome_three_bits r hr q hqr p hpq)
    obtain ⟨u, hu, hstat, hres⟩ := exec_dec_codeword_xor_corrected (m.extractLsb' 0 4) hk s'
    refine ⟨u, hu, hstat, fun hsame => lowNibble_three_bits_ne_zero r hr q hqr p hpq k hk ?_⟩
    rw [hres, setWidth_low_nibble_of_lt hm] at hsame
    exact (BitVec.xor_right_inj m).1 (hsame.trans BitVec.xor_zero.symm)

/-! ## A run of commands and its responses (60_exceptions R205) -/

/-- `r` is a response word of the command `i`, issued in some state. -/
def Responds (i : Instr) (r : Word) : Prop := ∃ s t f, exec i s = .next t ∧ ResponseOf t f r

theorem exec_responds (i : Instr) (s : State) : ∃ t r, exec i s = .next t ∧ t.hostEvents = s.hostEvents ∧
    t.responses = s.responses ++ [r] ∧ Responds i r := by
  obtain ⟨e, he, -⟩ := exec_endAlike (s := s) (t := s) i fun _ _ => rfl
  obtain ⟨f, hev, r, hrsp, hr⟩ := exec_answered he
  exact ⟨_, r, he, hev, hrsp, s, _, f, he, hr⟩

/-- A run over command words returns one response to each, in order. -/
theorem core_run_responds (is : List Instr) (s : State) (hs : s.hostEvents = (is.map encode).map .command) :
    ∃ (t : State) (rs : List Word), core.run is.length s = .next t ∧ t.responses = s.responses ++ rs ∧
      List.Forall₂ Responds is rs := by
  induction is generalizing s with
  | nil => exact ⟨s, [], rfl, (List.append_nil _).symm, .nil⟩
  | cons i is ih =>
    obtain ⟨t, r, ht, hev, hrsp, hr⟩ := exec_responds i { s with hostEvents := (is.map encode).map .command }
    obtain ⟨u, rs, hrun, hrsp', hrs⟩ := ih t hev
    have hstep : step s = .next t := (stepRunsDecodedCommand s _ i _ hs (decodeOfEncode i)).trans ht
    exact ⟨u, r :: rs, (core_run_succ_of_step hstep _).trans hrun, by simp [hrsp', hrsp], .cons hr hrs⟩

/-! ## The encoding stream (60_exceptions R207) -/

/-- The messages of a byte stream: each byte's low nibble and then its high one. -/
def streamMessages : List Byte → List Nibble
  | [] => []
  | x :: xs => x.extractLsb' 0 4 :: x.extractLsb' 4 4 :: streamMessages xs

theorem streamMessages_length (xs : List Byte) : (streamMessages xs).length = 2 * xs.length := by
  induction xs with
  | nil => rfl
  | cons x xs ih => simp only [streamMessages, List.length_cons, ih]; omega

/-- The command that encodes a message. -/
def encMessage (m : Nibble) : Instr := .enc (m.setWidth 8)

theorem encodeStreamCommands_eq_map (xs : List Byte) :
    encodeStreamCommands xs = ((streamMessages xs).map encMessage).map encode := by
  induction xs with
  | nil => rfl
  | cons x xs ih => rw [encodeStreamCommands, ih]; rfl

theorem low_nibble_setWidth : ∀ m : Nibble, (m.setWidth 8).extractLsb' 0 4 = m := by decide

theorem rspRes_of_responds_encMessage {m : Nibble} {r : Word} (h : Responds (encMessage m) r) :
    rspRes r = codeword m := by
  obtain ⟨s, t, f, ht, hrsp, -⟩ := h
  obtain ⟨hres, -⟩ := of_exec_eq_next (exec_enc_wroteRes _ s) ht
  rw [hrsp, hres, low_nibble_setWidth]

/-- The host emits the codewords of the messages. -/
theorem encodedBytes_eq_map_codeword {ms : List Nibble} {rs : List Word}
    (h : List.Forall₂ Responds (ms.map encMessage) rs) : encodedBytes rs = ms.map codeword := by
  rw [List.forall₂_map_left_iff] at h
  induction h with
  | nil => rfl
  | cons hr _ ih => exact congrArg₂ List.cons (rspRes_of_responds_encMessage hr) ih

/-! ## The decoding stream (60_exceptions R207, R208) -/

/-- `d` is the byte `c` with at most one bit flipped: what `OneBitApart` asks byte by byte. -/
def BitApart (c d : Byte) : Prop := d = c ∨ ∃ p < 8, d = c ^^^ BitVec.ofNat 8 (2 ^ p)

theorem OneBitApart.cons_inv {c : Byte} {cs received : List Byte} (h : OneBitApart (c :: cs) received) :
    ∃ d ds, received = d :: ds ∧ BitApart c d ∧ OneBitApart cs ds := by
  cases received with
  | nil => exact h.elim
  | cons d ds => exact ⟨d, ds, rfl, h⟩

/-- DEC of a codeword with at most one bit flipped gives its message. -/
theorem exec_dec_of_bitApart {m : Nibble} {d : Byte} (h : BitApart (codeword m) d) (s : State) :
    ∃ t, exec (.dec d) s = .next t ∧ t.res = m.setWidth 8 ∧ t.stat.code ≠ Stat.uncorrectable.code := by
  rcases h with rfl | ⟨p, hp, rfl⟩
  · obtain ⟨t, ht, hres, hstat, -⟩ := exec_dec_codeword m s
    exact ⟨t, ht, hres, hstat ▸ by decide⟩
  · obtain ⟨t, ht, hres, hstat, -⟩ := exec_dec_flipBit_codeword m (BitVec.ofNat 3 p) s
    exact ⟨t, xor_two_pow_eq_flipBit _ hp ▸ ht, hres, hstat ▸ by decide⟩

/-- The response to DEC of such a byte. -/
theorem rsp_of_responds_dec {m : Nibble} {d : Byte} {r : Word} (hd : BitApart (codeword m) d)
    (h : Responds (.dec d) r) : (rspRes r).extractLsb' 0 4 = m ∧ rspStat r ≠ Stat.uncorrectable.code := by
  obtain ⟨s, t, f, ht, hrsp, hstat, -⟩ := h
  obtain ⟨hres, hok⟩ := of_exec_eq_next (exec_dec_of_bitApart hd s) ht
  refine ⟨?_, hstat ▸ hok⟩
  rw [hrsp, hres, low_nibble_setWidth]

/-- For a pair without an UNCORRECTABLE half the host emits the two messages, whatever its policy (60_exceptions R206,
R207). -/
theorem decodedBytes_cons_cons {r₀ r₁ : Word} (h₀ : rspStat r₀ ≠ Stat.uncorrectable.code)
    (h₁ : rspStat r₁ ≠ Stat.uncorrectable.code) (rs : List Word) : decodedBytes (r₀ :: r₁ :: rs) =
      ((rspRes r₁).extractLsb' 0 4 ++ (rspRes r₀).extractLsb' 0 4) :: decodedBytes rs := by
  rw [decodedBytes, decodedPair, if_neg (not_or.2 ⟨h₀, h₁⟩)]
  rfl

theorem nibbles_append (x : Byte) : x.extractLsb' 4 4 ++ x.extractLsb' 0 4 = x :=
  (BitVec.extractLsb'_append_extractLsb'_eq_extractLsb' rfl).trans BitVec.extractLsb'_eq_self

theorem decodeStreamCommands_cons_cons (c₀ c₁ : Byte) (cs : List Byte) : decodeStreamCommands (c₀ :: c₁ :: cs) =
    (decodeStreamCommands cs).map fun ws => encode (.dec c₀) :: encode (.dec c₁) :: ws := by
  simp only [decodeStreamCommands, codewordPairs, Option.map_map]
  rfl

/-- The bytes received for a stream's codewords pair up, and the host issues DEC of each. -/
theorem decodeStreamCommands_of_oneBitApart (xs : List Byte) {received : List Byte}
    (h : OneBitApart ((streamMessages xs).map codeword) received) :
    decodeStreamCommands received = some ((received.map .dec).map encode) := by
  induction xs generalizing received with
  | nil =>
    cases received with
    | nil => rfl
    | cons d ds => exact h.elim
  | cons x xs ih =>
    obtain ⟨d₀, _, rfl, -, h⟩ := h.cons_inv
    obtain ⟨d₁, ds, rfl, -, h⟩ := h.cons_inv
    rw [decodeStreamCommands_cons_cons, ih h]
    rfl

/-- The responses to those commands give the host the stream's bytes. -/
theorem decodedBytes_of_oneBitApart (xs : List Byte) {received : List Byte} {rs : List Word}
    (h : OneBitApart ((streamMessages xs).map codeword) received)
    (hrs : List.Forall₂ Responds (received.map .dec) rs) : decodedBytes rs = xs := by
  induction xs generalizing received rs with
  | nil =>
    cases received with
    | nil => cases hrs; rfl
    | cons d ds => exact h.elim
  | cons x xs ih =>
    obtain ⟨d₀, _, rfl, hd₀, h⟩ := h.cons_inv
    obtain ⟨d₁, ds, rfl, hd₁, h⟩ := h.cons_inv
    obtain _ | ⟨hr₀, _ | ⟨hr₁, hrs⟩⟩ := hrs
    obtain ⟨hlow, hstat₀⟩ := rsp_of_responds_dec hd₀ hr₀
    obtain ⟨hhigh, hstat₁⟩ := rsp_of_responds_dec hd₁ hr₁
    rw [decodedBytes_cons_cons hstat₀ hstat₁, hlow, hhigh, nibbles_append, ih h hrs]

/-- Settles O60: the run over the encoding stream returns the codewords of the stream's messages, and the run over the
decoding stream the messages. -/
theorem streamSurvivesSingleErrors : Obligations.StreamSurvivesSingleErrors := by
  intro xs s hs
  rw [encodeStreamCommands_eq_map] at hs ⊢
  obtain ⟨t, rs, hrun, hrsp, hrs⟩ := core_run_responds _ s hs
  have hbytes := encodedBytes_eq_map_codeword hrs
  refine ⟨t, rs, by rwa [List.length_map], hrsp, ?_, fun received hrec => ?_⟩
  · rw [hbytes, List.length_map, streamMessages_length]
  · rw [hbytes] at hrec
    refine ⟨_, decodeStreamCommands_of_oneBitApart xs hrec, fun s' hs' => ?_⟩
    obtain ⟨t', rs', hrun', hrsp', hrs'⟩ := core_run_responds _ s' hs'
    exact ⟨t', rs', by rwa [List.length_map], hrsp', decodedBytes_of_oneBitApart xs hrec hrs'⟩

end Sys2Proof.Machine
end

section
/-! PROOFS. The statements about faults and completion: every step and every command of a run answers, a fault is
precise and recorded, and which command reports which fault (spec 60_exceptions R190 to R195, R205). -/

namespace Sys2Proof.Machine

/-! ## Every step answers (60_exceptions R190, R205) -/

/-- Settles O17: a command word answers, reset answers, and with no transaction left the state itself is answered. -/
theorem stepNeverStops : Obligations.StepNeverStops := by
  intro s
  cases he : s.hostEvents with
  | nil => exact ⟨s, by simp only [step, he, idle]⟩
  | cons e rest =>
    rw [step_of_cons he]
    cases e with
    | command w =>
      obtain ⟨t, -, ht, -⟩ := issue_answers w { s with hostEvents := rest }
      exact ⟨t, ht⟩
    | reset => exact ⟨_, rfl⟩
    | resetDuring w => exact ⟨_, rfl⟩

/-- Settles O18, by induction on the command words: each step takes one off the host's list and returns one response. -/
theorem runAnswersEachCommand : Obligations.RunAnswersEachCommand := by
  intro ws rest
  induction ws with
  | nil => exact fun s hs => ⟨s, [], rfl, hs, (List.append_nil _).symm, rfl⟩
  | cons w ws ih =>
    intro s hs
    obtain ⟨t, r, hi, hev, hrsp, -⟩ := issue_answers w { s with hostEvents := ws.map .command ++ rest }
    obtain ⟨u, rs, hrun, hrest, hrsp', hlen⟩ := ih t hev
    have hstep : step s = .next t := (step_of_cons hs).trans hi
    exact ⟨u, r :: rs, (core_run_succ_of_step hstep _).trans hrun, hrest, by simp [hrsp', hrsp], by simp [hlen]⟩

/-! ## Faults are precise and recorded (60_exceptions R193, R194) -/

theorem FaultCode.code_injective : Function.Injective FaultCode.code := by
  intro f g
  cases f <;> cases g <;> decide

/-- The fault code of an answer stands in its response word, so it is determined by the states before and after. -/
theorem Answered.code_unique {s t : State} {f g : FaultCode} (hf : Answered s t f) (hg : Answered s t g) : f = g := by
  obtain ⟨-, r, hr, -, -, hfault, -⟩ := hf
  obtain ⟨-, r', hr', -, -, hfault', -⟩ := hg
  have hrr : r = r' := by simpa [hr] using hr'
  subst hrr
  exact FaultCode.code_injective (hfault.symm.trans hfault')

theorem Faulted.answered {s t : State} {f : FaultCode} (h : Faulted f s t) : Answered s t f :=
  let ⟨_, _, _, _, _, ha⟩ := h
  ha

/-- A command word ends in a fault, or completes with the fault record as it was. -/
theorem issue_faulted_or_sameRecord {w : Word} {s t : State} (h : issue w s = .next t) :
    (∃ f, f ≠ .none ∧ Faulted f s t) ∨ (SameRecord s t ∧ Answered s t .none) := by
  rcases issue_cases w s with ⟨f, hf, -, hi⟩ | ⟨-, u, hi, hsticky, hcause, hev, hrsp, -⟩
  · obtain ⟨t', ht', hfaulted⟩ := raise_faulted f s
    cases (hi.symm.trans h).symm.trans ht'
    exact .inl ⟨f, hf, hfaulted⟩
  · obtain rfl := (complete_eq_next_iff u t).1 (hi ▸ h)
    exact .inr ⟨⟨hsticky, hcause⟩, answered_respond .none hev hrsp⟩

/-- Settles O23: a response that reports a fault is that of a word that ended in this fault. -/
theorem faultsArePrecise : Obligations.FaultsArePrecise := by
  intro w s t f hi ha hf
  rcases issue_faulted_or_sameRecord hi with ⟨g, -, hg⟩ | ⟨-, hnone⟩
  · exact ha.code_unique hg.answered ▸ hg
  · exact absurd (ha.code_unique hnone) hf

/-- Settles O24: the record after a fault is that of O23, and a word that reports none did not end in a fault. -/
theorem stickyFaultRecord : Obligations.StickyFaultRecord := by
  intro w s t f hi ha
  refine ⟨fun hf => ?_, fun hf => ?_⟩
  · obtain ⟨-, -, -, hsticky, hcause, -⟩ := faultsArePrecise w s t f hi ha hf
    exact ⟨hsticky, by rw [hcause]; cases s.fsticky <;> rfl⟩
  · rcases issue_faulted_or_sameRecord hi with ⟨g, hg, hfaulted⟩ | ⟨hrec, -⟩
    · exact absurd ((hfaulted.answered.code_unique ha).trans hf) hg
    · exact hrec

/-! ## The fault a decoded command reports, as a function (60_exceptions R192, R195) -/

/-- A check that ends in the fault `f` where `c` holds and passes elsewhere. -/
def checkFault (c : Prop) [Decidable c] (f : FaultCode) : FaultCode := if c then f else .none

/-- The check of the destination comes before the command's own check, which gives `own`. -/
def guardedFault (md : RegNo) (own : FaultCode) : FaultCode := if Constant md then .constantWrite else own

/-- The cell check on the register `M` (41_bit_access R120). -/
def cellFault (M : MatrixReg) (r c : Shape) : FaultCode :=
  checkFault (M.present = true ∧ ¬ CellIn M r c) .indexOutOfRange

/-- MUL's checks on its operands (42_convert_multiply R142). -/
def operandFault (A B : MatrixReg) : FaultCode :=
  if Degenerate A ∨ Degenerate B then .degenerateOperand else checkFault (A.cols ≠ B.rows) .dimensionMismatch

/-- The fault code a decoded command reports in state `s`; `exec_answers_faultOf` ties it to `exec`. -/
def faultOf (s : State) : Instr → FaultCode
  | .create md r c => guardedFault md (checkFault (8 < r.toNat ∨ 8 < c.toNat) .allocationError)
  | .free md => guardedFault md .none
  | .getbit ma r c => cellFault (s.readMR ma) r c
  | .setbit md r c | .clrbit md r c | .tglbit md r c | .xorbit md r c _ =>
    guardedFault md (cellFault (s.readMR md) r c)
  | .frombyte md _ n => guardedFault md (checkFault (8 < n.toNat) .invalidLength)
  | .mul md ma mb => guardedFault md (operandFault (s.readMR ma) (s.readMR mb))
  | .nop | .rows _ | .cols _ | .len _ | .tobyte _ | .enc _ | .dec _ => .none

/-- The result is a next state whose response carries the fault code `f`. -/
def Reports (s : State) (res : Result) (f : FaultCode) : Prop := ∃ t, res = .next t ∧ Answered s t f

section Reports
variable {s : State} {res : Result}

theorem Reports.of_faulted {f : FaultCode} (h : ∃ t, res = .next t ∧ Faulted f s t) : Reports s res f :=
  let ⟨t, ht, hf⟩ := h
  ⟨t, ht, hf.answered⟩

theorem Reports.of_wroteMatrix {md : RegNo} {M : MatrixReg} (h : ∃ t, res = .next t ∧ WroteMatrix md M s t) :
    Reports s res .none :=
  let ⟨t, ht, _, _, _, _, _, ha⟩ := h
  ⟨t, ht, ha⟩

theorem Reports.of_wroteRes {v : Byte} (h : ∃ t, res = .next t ∧ WroteRes v s t) : Reports s res .none :=
  let ⟨t, ht, _, _, _, _, ha⟩ := h
  ⟨t, ht, ha⟩

theorem Reports.of_decoded {v : Byte} {x : Stat} (h : ∃ t, res = .next t ∧ Decoded v x s t) : Reports s res .none :=
  let ⟨t, ht, _, _, _, _, ha⟩ := h
  ⟨t, ht, ha⟩

theorem Reports.of_unchanged (h : ∃ t, res = .next t ∧ Unchanged s t) : Reports s res .none :=
  let ⟨t, ht, _, ha⟩ := h
  ⟨t, ht, ha⟩

theorem Reports.ite {c : Prop} [Decidable c] {f g : FaultCode} (hf : c → Reports s res f)
    (hg : ¬ c → Reports s res g) : Reports s res (if c then f else g) := by
  split
  next h => exact hf h
  next h => exact hg h

end Reports

/-- A command with a destination reports ConstantWrite on MR6 and MR7, and else what its own check gives. -/
theorem reports_guardedFault {i : Instr} {md : RegNo} {own : FaultCode} {s : State} (ht : target i = some md)
    (h : General md → Reports s (exec i s) own) : Reports s (exec i s) (guardedFault md own) :=
  .ite (fun hc => .of_faulted (exec_faulted_of_constant_target ht hc s)) fun hc => h (not_or.1 hc)

/-- The shared cell operation on a general register reports what the cell check gives. -/
theorem updateCell_reports (f : Bool → Bool) {s : State} {md : RegNo} (r c : Shape) (hg : General md) :
    Reports s (updateCell f md r c s) (cellFault (s.readMR md) r c) := by
  refine .ite (fun ⟨hp, hout⟩ => .of_faulted (updateCell_faulted_of_not_cellIn f hg hp hout)) fun h => ?_
  cases hp : (s.readMR md).present with
  | false => exact .of_unchanged (updateCell_unchanged_of_not_present f r c hp)
  | true => exact .of_wroteMatrix (updateCell_of_cellIn f hg hp (not_not.1 fun hout => h ⟨hp, hout⟩))

theorem exec_getbit_reports (ma : RegNo) (r c : Shape) (s : State) :
    Reports s (exec (.getbit ma r c) s) (cellFault (s.readMR ma) r c) := by
  refine .ite (fun ⟨hp, hout⟩ => .of_faulted (exec_getbit_of_not_cellIn hp hout)) fun h => ?_
  cases hp : (s.readMR ma).present with
  | false => exact .of_wroteRes (exec_getbit_of_not_present r c hp)
  | true => exact .of_wroteRes (exec_getbit_of_cellIn hp (not_not.1 fun hout => h ⟨hp, hout⟩))

theorem exec_mul_reports {md ma mb : RegNo} (s : State) (hg : General md) :
    Reports s (exec (.mul md ma mb) s) (operandFault (s.readMR ma) (s.readMR mb)) := by
  refine .ite (fun h => .of_faulted (exec_mul_faulted_of_degenerate hg h)) fun h => ?_
  obtain ⟨ha, hb⟩ := not_or.1 h
  exact .ite (fun hdim => .of_faulted (exec_mul_faulted_of_mismatch hg ha hb hdim))
    fun hdim => .of_wroteMatrix (exec_mul_wroteMatrix hg ha hb (not_not.1 hdim))

theorem exec_dec_reports (x : Byte) (s : State) : Reports s (exec (.dec x) s) .none := by
  rcases exec_dec_uniform x with ⟨v, y, h⟩ | h
  · exact .of_decoded (h s)
  · exact .of_decoded (h s)

/-- Every decoded command reports `faultOf`. -/
theorem exec_reports_faultOf (i : Instr) (s : State) : Reports s (exec i s) (faultOf s i) := by
  cases i with
  | nop => exact .of_unchanged (complete_unchanged s)
  | create md r c =>
    refine reports_guardedFault rfl fun hg => .ite (fun h => .of_faulted (exec_create_faulted_of_large hg h s))
      fun h => .of_wroteMatrix (exec_create_wroteMatrix hg ?_ ?_ s) <;> omega
  | free md => exact reports_guardedFault rfl fun hg => .of_wroteMatrix (exec_free_wroteMatrix hg s)
  | rows ma => exact .of_wroteRes (complete_wroteRes s _)
  | cols ma => exact .of_wroteRes (complete_wroteRes s _)
  | len ma => exact .of_wroteRes (complete_wroteRes s _)
  | getbit ma r c => exact exec_getbit_reports ma r c s
  | setbit md r c => exact reports_guardedFault rfl (updateCell_reports (fun _ => true) r c)
  | clrbit md r c => exact reports_guardedFault rfl (updateCell_reports (fun _ => false) r c)
  | tglbit md r c => exact reports_guardedFault rfl (updateCell_reports (fun x => x ^^ true) r c)
  | xorbit md r c b => exact reports_guardedFault rfl (updateCell_reports (fun x => x ^^ b.getLsbD 0) r c)
  | frombyte md b n =>
    exact reports_guardedFault rfl fun hg => .ite (fun h => .of_faulted (exec_frombyte_faulted_of_long b hg h s))
      fun h => .of_wroteMatrix (exec_frombyte_wroteMatrix b hg (not_lt.1 h) s)
  | tobyte ma => exact .of_wroteRes (complete_wroteRes s _)
  | mul md ma mb => exact reports_guardedFault rfl (exec_mul_reports s)
  | enc x => exact .of_wroteRes (exec_enc_wroteRes x s)
  | dec x => exact exec_dec_reports x s

/-! ## Which command reports which fault

What each check gives is said once below. A fault code then belongs to the rows of `faultOf` whose checks can give it,
and the checks of every other row give other codes. -/

@[simp] theorem checkFault_eq_iff {c : Prop} [Decidable c] (f g : FaultCode) :
    checkFault c f = g ↔ c ∧ f = g ∨ ¬ c ∧ .none = g := ite_eq_iff

@[simp] theorem guardedFault_eq_iff (md : RegNo) (own f : FaultCode) :
    guardedFault md own = f ↔ Constant md ∧ .constantWrite = f ∨ General md ∧ own = f := by
  rw [guardedFault, ite_eq_iff, not_or]

@[simp] theorem cellFault_eq_iff (M : MatrixReg) (r c : Shape) (f : FaultCode) : cellFault M r c = f ↔
    (M.present = true ∧ ¬ CellIn M r c) ∧ .indexOutOfRange = f ∨
    ¬ (M.present = true ∧ ¬ CellIn M r c) ∧ .none = f :=
  checkFault_eq_iff _ _

@[simp] theorem operandFault_eq_iff (A B : MatrixReg) (f : FaultCode) : operandFault A B = f ↔
    (Degenerate A ∨ Degenerate B) ∧ .degenerateOperand = f ∨
    (¬ Degenerate A ∧ ¬ Degenerate B) ∧ (A.cols ≠ B.rows ∧ .dimensionMismatch = f ∨ A.cols = B.rows ∧ .none = f) := by
  rw [operandFault, ite_eq_iff, checkFault_eq_iff, not_or, not_not]

/-- ConstantWrite comes from the destination check and from no other. -/
theorem faultOf_eq_constantWrite_iff (s : State) (i : Instr) :
    faultOf s i = .constantWrite ↔ ∃ md, target i = some md ∧ Constant md := by
  cases i <;> simp [faultOf, target]

theorem faultOf_eq_allocationError_iff (s : State) (i : Instr) : faultOf s i = .allocationError ↔
    ∃ md r c, i = .create md r c ∧ General md ∧ (8 < r.toNat ∨ 8 < c.toNat) := by
  cases i <;> simp [faultOf]

theorem faultOf_eq_invalidLength_iff (s : State) (i : Instr) : faultOf s i = .invalidLength ↔
    ∃ md b n, i = .frombyte md b n ∧ General md ∧ 8 < n.toNat := by
  cases i <;> simp [faultOf]

theorem faultOf_eq_indexOutOfRange_iff (s : State) (i : Instr) : faultOf s i = .indexOutOfRange ↔
    (∃ ma r c, i = .getbit ma r c ∧ (s.readMR ma).present = true ∧ ¬ CellIn (s.readMR ma) r c) ∨
    (∃ md r c b, i ∈ [Instr.setbit md r c, .clrbit md r c, .tglbit md r c, .xorbit md r c b] ∧ General md ∧
      (s.readMR md).present = true ∧ ¬ CellIn (s.readMR md) r c) := by
  cases i <;> simp [faultOf]

theorem faultOf_eq_degenerateOperand_iff (s : State) (i : Instr) : faultOf s i = .degenerateOperand ↔
    ∃ md ma mb, i = .mul md ma mb ∧ General md ∧ (Degenerate (s.readMR ma) ∨ Degenerate (s.readMR mb)) := by
  cases i <;> simp [faultOf]

theorem faultOf_eq_dimensionMismatch_iff (s : State) (i : Instr) : faultOf s i = .dimensionMismatch ↔
    ∃ md ma mb, i = .mul md ma mb ∧ General md ∧ ¬ Degenerate (s.readMR ma) ∧ ¬ Degenerate (s.readMR mb) ∧
      (s.readMR ma).cols ≠ (s.readMR mb).rows := by
  cases i <;> simp [faultOf, and_assoc]

theorem faultOf_ne_illegalCommand (s : State) (i : Instr) : faultOf s i ≠ .illegalCommand := by
  cases i <;> simp [faultOf]

/-- Settles O25: the code an answer carries is `faultOf`, which takes each value under its own condition. -/
theorem faultCausesAndPriority : Obligations.FaultCausesAndPriority := by
  intro i s t f h ha
  have hf : faultOf s i = f := (of_exec_eq_next (exec_reports_faultOf i s) h).code_unique ha
  subst hf
  exact ⟨faultOf_eq_constantWrite_iff s i, faultOf_eq_allocationError_iff s i, faultOf_eq_invalidLength_iff s i,
    faultOf_eq_indexOutOfRange_iff s i, faultOf_eq_degenerateOperand_iff s i, faultOf_eq_dimensionMismatch_iff s i,
    faultOf_ne_illegalCommand s i⟩

end Sys2Proof.Machine
end

section
/-! PROOFS. The statement about reset: asserting it restores the block's reset state and returns no response
(spec 70_reset_and_hazards R220 to R222). -/

namespace Sys2Proof.Machine

/-- The state after reset is asserted is the reset state to every observer of the block (70_reset_and_hazards R221). -/
theorem State.sameBlock_assertReset (s : State) : SameBlock State.reset s.assertReset :=
  ⟨State.readMR_congr s.assertReset_mr, s.assertReset_res, s.assertReset_stat, s.assertReset_fsticky,
    s.assertReset_fcause⟩

/-- Both reset transactions assert reset; a command outstanding leaves no trace (70_reset_and_hazards R222). -/
theorem transact_of_reset {e : HostEvent} (he : e = .reset ∨ ∃ w, e = .resetDuring w) (s : State) :
    transact e s = .next s.assertReset := by
  obtain rfl | ⟨w, rfl⟩ := he <;> rfl

/-- Settles O13: the step takes the transaction off the host's list and asserts reset, which keeps the port's lists. -/
theorem resetAssertion : Obligations.ResetAssertion := by
  intro s e rest hs he
  have hstep : step s = .next (State.assertReset { s with hostEvents := rest }) :=
    (step_of_cons hs).trans (transact_of_reset he _)
  exact ⟨_, hstep, State.sameBlock_assertReset _, State.assertReset_responses _, State.assertReset_hostEvents _⟩

end Sys2Proof.Machine
end

section
/-! PROOFS. The statements that rest on the model's own choices: the step with no transaction left (log entry 3) and the
decoding host's answer to a stream of odd length (log entry 12; spec 60_exceptions R208). -/

namespace Sys2Proof.Machine

/-- Settles O16: with no transaction left the step is `idle`, which answers the state itself. -/
theorem stepIdles : Obligations.StepIdles := by
  intro s hs
  have hidle : step s = idle s := by simp only [step, hs]
  exact hidle.trans rfl

/-- Settles O59: the host takes the bytes two by two, and a pair in front changes neither whether the rest is rejected
nor the parity of the length; so the stream is rejected when one byte is left, and not when none is. -/
theorem oddStreamIsRejected : Obligations.OddStreamIsRejected := by
  intro cs
  induction cs using codewordPairs.induct with
  | case1 => simp [decodeStreamCommands, codewordPairs]
  | case2 c => simp [decodeStreamCommands, codewordPairs]
  | case3 c₀ c₁ cs ih =>
    have hparity : (c₀ :: c₁ :: cs).length % 2 = cs.length % 2 := Nat.add_mod_right cs.length 2
    rw [decodeStreamCommands_cons_cons, Option.map_eq_none_iff, hparity, ih]

end Sys2Proof.Machine
end
